-- ==== Sys2Proof/Config.lean ====
section
/-!
DEFINITION. The implementation parameters of 00_scope.md R4, which every definition of the model takes as an
argument, and the values the spec leaves free.
-/

namespace Sys2Proof

/-- The implementation parameters of 00_scope.md R4 with their constraints: "a model takes them as arguments".
Every state carries its own (Machine/State.lean; assumption 1). -/
structure Params where
  /-- `W`: width in bits of every scalar register, buffer word and the host data bus. -/
  W : Nat
  /-- `LOGNMAX`: log2 of the capacity of one sequence buffer. -/
  LOGNMAX : Nat
  /-- `W >= 16`: a word holds a command word. -/
  wordWide : 16 ≤ W
  /-- `W >= LOGNMAX + 2`: a word holds every admitted length. -/
  lengthFits : LOGNMAX + 2 ≤ W
  /-- `LOGNMAX >= 1`. -/
  capacity : 1 ≤ LOGNMAX
  deriving DecidableEq, Repr

/-- The default column of R4: `W = 32`, `LOGNMAX = 10`. No rule depends on it; the reset state of the fixed
name `State.reset` and the table words of the host take it (assumption 1). -/
abbrev Params.standard : Params where
  W := 32
  LOGNMAX := 10
  wordWide := by decide
  lengthFits := by decide
  capacity := by decide

/-- `NMAX` (R4): words in one sequence buffer, the largest admitted sequence length. -/
abbrev Params.NMAX (P : Params) : Nat := 2 ^ P.LOGNMAX

/-- `AW` (R4): width in bits of the host word address. -/
abbrev Params.AW (P : Params) : Nat := P.LOGNMAX + 3

/-- The first host address of the buffer page: every buffer address lies in `[2^(AW-1), 2^AW)`
(20_memory.md R42, R43). -/
abbrev Params.bufBase (P : Params) : Nat := 2 ^ (P.AW - 1)

/-- The first number that is no host address (20_memory.md R40). -/
abbrev Params.addrEnd (P : Params) : Nat := 2 ^ P.AW

/-- `NBUF` (R4): number of sequence buffers, "fixed at 4, not a parameter". -/
abbrev Config.NBUF : Nat := 4

/-- The word that a buffer word holds after reset number `epoch` until it is first written, by host
word address: "unspecified: any `W`-bit word, and not necessarily the same word on two resets"
(10_state.md R33). A FREE VALUE (assumption 3): it has no body, nothing can be proved of it. -/
opaque Config.resetWord (P : Params) (epoch addr : Nat) : BitVec P.W

/-- What a bridge to bytes shows of a word `w` in the bits of byte `lane` that lie at or above bit `W`, where the
bytes of a word do not come out even: 20_memory.md R47 gives no rule for them. A FREE VALUE (assumption 12). -/
opaque Config.bridgeFill (P : Params) (w : BitVec P.W) (lane : Nat) : BitVec 8

end Sys2Proof
end

