-- ==== Sys2Proof/Word.lean ====
section
/-!
DEFINITION. The word types of the block (00_scope.md R4, R6; 30_encoding.md R60, R62).
-/

namespace Sys2Proof

/-- One `W`-bit word: a scalar register, a buffer word, the host data bus (R4). -/
abbrev Word (P : Params) := BitVec P.W

/-- A host word address of `AW` bits (20_memory.md R40). -/
abbrev HostAddr (P : Params) := BitVec P.AW

/-- The 16-bit command word `cw` (30_encoding.md R60). -/
abbrev CmdWord := BitVec 16

/-- A buffer selector: "unsigned 2-bit numbers `k` that name `BUF[k]`, `0 <= k <= 3`; all four
values are legal in a used field" (30_encoding.md R62). The bound is in the type. -/
abbrev BufId := Fin Config.NBUF

end Sys2Proof
end

