-- ==== Sys2Proof/Syntax.lean ====
section
/-!
DEFINITION. The fourteen commands of 30_encoding.md R64, one constructor per row of the opcode
table, operands in the order of the assembler syntax (R66): destination, source A, source B.
-/

namespace Sys2Proof

/-- A command (30_encoding.md R64). The scalar (S) commands name no operand: they read and write
fixed registers (10_state.md R21). `sd`, `sa`, `sb` name sequence buffers (R62). -/
inductive Instr where
  /-- TRUEMOD, 40_modular_arithmetic.md R82. -/
  | trueMod
  /-- MULMOD, 40_modular_arithmetic.md R83. -/
  | mulMod
  /-- POWMOD, 40_modular_arithmetic.md R85. -/
  | powMod
  /-- INVMOD, 40_modular_arithmetic.md R87. -/
  | invMod
  /-- BFLY, 42_transform.md R121. -/
  | bfly
  /-- ISGEN, 41_root_finder.md R102. -/
  | isGen
  /-- GEN, 41_root_finder.md R104. -/
  | gen
  /-- GETROOT, 41_root_finder.md R106. -/
  | getRoot
  /-- CHKROOT, 41_root_finder.md R108. -/
  | chkRoot
  /-- NTT BUFd, BUFa, 42_transform.md R124. -/
  | ntt (sd sa : BufId)
  /-- INTT BUFd, BUFa, 42_transform.md R126. -/
  | intt (sd sa : BufId)
  /-- PWMUL BUFd, BUFa, BUFb, 43_convolution.md R141. -/
  | pwMul (sd sa sb : BufId)
  /-- CONV BUFd, BUFa, BUFb, 43_convolution.md R143. -/
  | conv (sd sa sb : BufId)
  /-- CHKCONV BUFd, BUFa, BUFb, 43_convolution.md R145. -/
  | chkConv (sd sa sb : BufId)
  deriving DecidableEq, Repr

end Sys2Proof
end

