-- ==== Sys2Proof/WellFormed.lean ====
section
/-!
DEFINITION. Which words are commands: the five illegality conditions of 30_encoding.md R65, written
from that rule on the number a word is (of any width `W`), apart from the decoder (R68) of Decode.lean.

An `Instr` needs no check of its own: its only operands are buffer selectors, all four values of which
are legal in a used field (R62), and their bound is in `BufId`. What can be ill-formed is the written
word. (The assembler's lines have their own check, in Machine/Assembly.lean.)
-/

namespace Sys2Proof

/-- The S-format opcodes of R64. -/
def scalarOpcodes : List Nat := [0x01, 0x02, 0x03, 0x04, 0x05, 0x08, 0x09, 0x0A, 0x0B]

/-- The V1-format opcodes of R64. -/
def oneSourceOpcodes : List Nat := [0x10, 0x11]

/-- The V2-format opcodes of R64. -/
def twoSourceOpcodes : List Nat := [0x12, 0x13, 0x14]

/-- R65 (a) does not hold: `data[W-1:16] = 0`. -/
def upperBitsZero {W : Nat} (data : BitVec W) : Bool := data.toNat / 2 ^ 16 == 0

/-- R65 (b) does not hold: `cw[7:0]` is an opcode. -/
def opcodeKnown {W : Nat} (data : BitVec W) : Bool :=
  (scalarOpcodes ++ oneSourceOpcodes ++ twoSourceOpcodes).contains (data.toNat % 2 ^ 8)

/-- R65 (c) does not hold: `cw[15:14] = 0`. -/
def zeroFieldZero {W : Nat} (data : BitVec W) : Bool := data.toNat / 2 ^ 14 % 4 == 0

/-- R65 (d) does not hold: an S-format word has `cw[13:8] = 0`. -/
def scalarFieldsZero {W : Nat} (data : BitVec W) : Bool :=
  !scalarOpcodes.contains (data.toNat % 2 ^ 8) || data.toNat / 2 ^ 8 % 64 == 0

/-- R65 (e) does not hold: a V1-format word has `cw[11:10] = 0`. -/
def oneSourceSbZero {W : Nat} (data : BitVec W) : Bool :=
  !oneSourceOpcodes.contains (data.toNat % 2 ^ 8) || data.toNat / 2 ^ 10 % 4 == 0

/-- A written word is one of the fourteen commands: none of R65 (a) to (e) holds. -/
def wellFormedWord {W : Nat} (data : BitVec W) : Bool :=
  upperBitsZero data && opcodeKnown data && zeroFieldZero data && scalarFieldsZero data
    && oneSourceSbZero data

end Sys2Proof
end

