-- ==== Sys2Proof/Decode.lean ====
section
/-!
DEFINITION. The command decoder of 30_encoding.md R68, total on every written word and rejecting by
name, and the encoder of R61, R64, R66.
-/

namespace Sys2Proof

/-- Why a written word is no command (30_encoding.md R65). All five are one error to the host,
IllegalCommand: it sees no sub-cause (60_exceptions.md R162). -/
inductive Illegal where
  /-- R65 (a): `data[W-1:16] != 0`. -/
  | upperBits
  /-- R65 (b): the opcode field names no command. -/
  | unknownOpcode
  /-- R65 (c): `cw[15:14] != 0`. -/
  | zeroField
  /-- R65 (d): an S-format word with a non-zero selector field. -/
  | scalarFields
  /-- R65 (e): a V1-format word with `sb != 0`. -/
  | sbField
  deriving DecidableEq, Repr

/-- `cw = data[15:0]` (R60). -/
def cmdWord {W : Nat} (data : BitVec W) : CmdWord := data.extractLsb' 0 16

/-- `cw[7:0]` (R61). -/
def opcodeOf (cw : CmdWord) : BitVec 8 := cw.extractLsb' 0 8

/-- `sa = cw[9:8]` (R61, R62). -/
def saOf (cw : CmdWord) : BufId := (cw.extractLsb' 8 2).toFin

/-- `sb = cw[11:10]` (R61, R62). -/
def sbOf (cw : CmdWord) : BufId := (cw.extractLsb' 10 2).toFin

/-- `sd = cw[13:12]` (R61, R62). -/
def sdOf (cw : CmdWord) : BufId := (cw.extractLsb' 12 2).toFin

/-- A decoded S-format command: its selector fields must be 0 (R68). -/
def decodeScalar (cw : CmdWord) (i : Instr) : Except Illegal Instr :=
  if cw.extractLsb' 8 6 ≠ 0#6 then .error .scalarFields else .ok i

/-- A decoded V1-format command: its `sb` field must be 0 (R68). -/
def decodeOneSource (cw : CmdWord) (c : BufId → BufId → Instr) : Except Illegal Instr :=
  if sbOf cw ≠ 0 then .error .sbField else .ok (c (sdOf cw) (saOf cw))

/-- A decoded V2-format command (R68). -/
def decodeTwoSource (cw : CmdWord) (c : BufId → BufId → BufId → Instr) : Except Illegal Instr :=
  .ok (c (sdOf cw) (saOf cw) (sbOf cw))

/-- The opcode map of R64. -/
def decodeOpcode (cw : CmdWord) : Except Illegal Instr :=
  match (opcodeOf cw).toNat with
  | 0x01 => decodeScalar cw .trueMod
  | 0x02 => decodeScalar cw .mulMod
  | 0x03 => decodeScalar cw .powMod
  | 0x04 => decodeScalar cw .invMod
  | 0x05 => decodeScalar cw .bfly
  | 0x08 => decodeScalar cw .isGen
  | 0x09 => decodeScalar cw .gen
  | 0x0A => decodeScalar cw .getRoot
  | 0x0B => decodeScalar cw .chkRoot
  | 0x10 => decodeOneSource cw .ntt
  | 0x11 => decodeOneSource cw .intt
  | 0x12 => decodeTwoSource cw .pwMul
  | 0x13 => decodeTwoSource cw .conv
  | 0x14 => decodeTwoSource cw .chkConv
  | _ => .error .unknownOpcode

/-- `decode(data)` (R68) from the check of `cw[15:14]` on. -/
def decodeCmd (cw : CmdWord) : Except Illegal Instr :=
  if cw.extractLsb' 14 2 ≠ 0#2 then .error .zeroField else decodeOpcode cw

/-- `decode(data)` (R68), for a written word of any width `W`. -/
def decode {W : Nat} (data : BitVec W) : Except Illegal Instr :=
  if data.extractLsb' 16 (W - 16) ≠ 0 then .error .upperBits else decodeCmd (cmdWord data)

/-- A buffer selector as its 2-bit field (R62). -/
def selector (k : BufId) : BitVec 2 := .ofFin k

/-- The layout of R61: `zero`, `sd`, `sb`, `sa`, `opcode`, high bits first. -/
def layout (sd sb sa : BitVec 2) (op : BitVec 8) : CmdWord := 0#2 ++ sd ++ sb ++ sa ++ op

/-- The command word of a command (R61, R64, R66); a field its format does not use is 0. -/
def encode : Instr → CmdWord
  | .trueMod => layout 0 0 0 0x01
  | .mulMod => layout 0 0 0 0x02
  | .powMod => layout 0 0 0 0x03
  | .invMod => layout 0 0 0 0x04
  | .bfly => layout 0 0 0 0x05
  | .isGen => layout 0 0 0 0x08
  | .gen => layout 0 0 0 0x09
  | .getRoot => layout 0 0 0 0x0A
  | .chkRoot => layout 0 0 0 0x0B
  | .ntt sd sa => layout (selector sd) 0 (selector sa) 0x10
  | .intt sd sa => layout (selector sd) 0 (selector sa) 0x11
  | .pwMul sd sa sb => layout (selector sd) (selector sb) (selector sa) 0x12
  | .conv sd sa sb => layout (selector sd) (selector sb) (selector sa) 0x13
  | .chkConv sd sa sb => layout (selector sd) (selector sb) (selector sa) 0x14

/-- The word written to `CMD` for a command: `zext_W(cw)` (R66). -/
def encodeWord (P : Params) (i : Instr) : Word P := (encode i).setWidth P.W

/-- The written word whose low `nbits` bits are `w` and whose other bits are 0 (R60). -/
def tableWord (P : Params) (nbits w : Nat) : Word P := BitVec.ofNat P.W (w % 2 ^ nbits)

/-- What the decoder reads from an opcode-table word of `nbits` bits, at the default width (assumption 1). -/
def decodeTableWord (nbits w : Nat) : Option Instr := (decode (tableWord .standard nbits w)).toOption

end Sys2Proof
end

