-- ==== Sys2Proof/Machine/State.lean ====
section
/-!
DEFINITION. The state of the block (10_state.md R20), the host's side of the port (20_memory.md R40),
the reset state (R33) and the ways a step can stop (there is no way but an instruction not modelled).
-/

namespace Sys2Proof.Machine

/-- The scalar data registers `x[0]` to `x[6]` (10_state.md R21). -/
inductive ScalarReg where
  /-- `x[0]`, the modulus. -/
  | mod
  /-- `x[1]`, the sequence length. -/
  | len
  /-- `x[2]`, the root of unity. -/
  | root
  /-- `x[3]`, the first scalar operand. -/
  | opa
  /-- `x[4]`, the second scalar operand. -/
  | opb
  /-- `x[5]`, the third scalar operand. -/
  | opc
  /-- `x[6]`, the scalar result; read only to the host. -/
  | res
  deriving DecidableEq, Repr

/-- What a host address names (20_memory.md R42). -/
inductive Target where
  /-- A scalar data register, addresses 0x0 to 0x6. -/
  | scalar (r : ScalarReg)
  /-- `CMD`, address 0x8 (10_state.md R27). -/
  | cmd
  /-- `STATUS`, address 0x9 (10_state.md R26). -/
  | status
  /-- `ECMD`, address 0xA (10_state.md R28). -/
  | ecmd
  /-- Word `i` of `BUF[k]` (20_memory.md R43). -/
  | buf (k : BufId) (i : Nat)
  /-- No target: every access is refused (20_memory.md R46). -/
  | unmapped
  deriving DecidableEq, Repr

/-- The five errors a command can raise (60_exceptions.md R160). -/
inductive CmdError where
  /-- Code 1: `MOD <= 0`. -/
  | invalidModulus
  /-- Code 2: no inverse exists. -/
  | notInvertible
  /-- Code 3: the generator scan found none. -/
  | noGeneratorFound
  /-- Code 4: a stated precondition does not hold. -/
  | preconditionViolated
  /-- Code 5: the word written to `CMD` is no command. -/
  | illegalCommand
  deriving DecidableEq, Repr

/-- What the host does next: a transaction of 20_memory.md R40, or the reset of
70_reset_and_hazards.md R190. -/
inductive HostEvent (P : Params) where
  /-- `RD addr`. -/
  | rd (addr : HostAddr P)
  /-- `WR addr, data`. -/
  | wr (addr : HostAddr P) (data : Word P)
  /-- `rst` sampled high, between two transactions (R190, R191). -/
  | rst
  deriving DecidableEq, Repr

/-- The answer to one transaction (20_memory.md R40): `OK` or `ERR`, and for a read the word returned.
`ERR` is the refusal of 60_exceptions.md R172; a command's fault is not an answer but a state
(`STATUS.FAULT`), its write being answered `OK`. -/
structure Response (P : Params) where
  /-- The response is `OK` (`true`) or `ERR` (`false`). -/
  ok : Bool
  /-- The word a read returns; a write returns none. -/
  word : Option (Word P)
  deriving DecidableEq, Repr

/-- The sequence buffers' words, by host word address (20_memory.md R43): the words written since
reset, addresses strictly rising. An address not listed has not been written since reset; what it
reads as is `StateAt.bufWord` (Ops.lean), a free value. One entry is one whole word: the port has no
smaller unit (R47, R48; assumption 4). -/
abbrev Memory (P : Params) := List (Nat × Word P)

/-- The listed addresses rise strictly, from `lo` on. -/
def Memory.risingFrom {P : Params} : Nat → Memory P → Bool
  | _, [] => true
  | lo, (a, _) :: m => decide (lo ≤ a) && Memory.risingFrom (a + 1) m

/-- The canonical form: addresses strictly rising, all in the buffer page. No entry can equal what an
unlisted address reads as, since the list gives an unlisted address no word at all. -/
def Memory.wf {P : Params} (m : Memory P) : Bool :=
  Memory.risingFrom P.bufBase m && m.all fun c => decide (c.1 < P.addrEnd)

/-- The state of a block with the parameters `P` (00_scope.md R4). The fields down to `buf` are the block's, all that 10_state.md R20 lists; `pending`,
`responses` and `resets` are the model's own (assumptions 3 and 5): the host's program (R25 keeps it
outside the block), the observation of the run (00_scope.md R14) and the count of resets. -/
structure StateAt (P : Params) where
  /-- `MOD`, x[0] (R21). -/
  mod : Word P
  /-- `LEN`, x[1] (R21). -/
  len : Word P
  /-- `ROOT`, x[2] (R21). -/
  root : Word P
  /-- `OPA`, x[3] (R21). -/
  opa : Word P
  /-- `OPB`, x[4] (R21). -/
  opb : Word P
  /-- `OPC`, x[5] (R21). -/
  opc : Word P
  /-- `RES`, x[6] (R21, R23). -/
  res : Word P
  /-- `STATUS.FAULT` (R26). -/
  fault : Bool
  /-- `STATUS.ERR` (R26). -/
  err : BitVec 4
  /-- `ECMD` (R28). -/
  ecmd : CmdWord
  /-- `BUF[0]` to `BUF[3]` (R24): the words written since reset. -/
  buf : Memory P
  /-- The host's events not yet run, first one first (30_encoding.md R66). -/
  pending : List (HostEvent P)
  /-- The answers given so far, oldest first (00_scope.md R14). -/
  responses : List (Response P)
  /-- How many resets have happened: the free buffer words after two resets may differ (R33). -/
  resets : Nat
  deriving DecidableEq, Repr

/-- The state: a block's parameters, which no step changes, and what the block holds. A step takes one state and
nothing else, so the arguments of R4 stand in it (assumption 1). -/
structure State where
  /-- `W` and `LOGNMAX` of this block (R4). -/
  params : Params
  /-- What a block with these parameters holds. -/
  contents : StateAt params
  deriving DecidableEq, Repr

/-- How a step stops the machine with a fault: in no way. The block has no stuck state: "no state of
the block is without a response to a transaction" (93_implementation_defined.md, end of Part 1), and
its own faults (60_exceptions.md R163) are next states. Nothing raises it, which is safe. -/
inductive Fault where
  deriving DecidableEq, Repr

/-- How a step refuses. The port's own refusals (20_memory.md R46) are answers in a next state. -/
inductive Refusal where
  /-- Raised by `exec` alone, for a command without a meaning; no arm of this model raises it. Safe: the
  run stops where the block would go on. -/
  | notModelled (mnemonic : String)
  deriving DecidableEq, Repr

/-- The state after reset (10_state.md R33): every scalar register, `STATUS` and `ECMD` 0, no buffer
word written. No host event is pending and none has been answered (assumption 5). -/
def StateAt.reset (P : Params) : StateAt P where
  mod := 0
  len := 0
  root := 0
  opa := 0
  opb := 0
  opc := 0
  res := 0
  fault := false
  err := 0
  ecmd := 0
  buf := []
  pending := []
  responses := []
  resets := 0

/-- The state after reset of a block with the default parameters of R4 (assumption 1); for others it is
`⟨P, StateAt.reset P⟩`. -/
def State.reset : State where
  params := .standard
  contents := .reset .standard

end Sys2Proof.Machine
end

