-- ==== Sys2Proof/Machine/Operands.lean ====
section
/-!
DEFINITION. How operands are read and results written: the signed reading of a word, the scalar
registers by number, and host addresses (00_scope.md R7, R8; 20_memory.md R42, R43).
-/

namespace Sys2Proof.Machine

/-- `sint(b)`: the two's-complement integer of a word (00_scope.md R7). -/
def sint {W : Nat} (b : BitVec W) : Int := b.toInt

/-- `bits_W(v)`: the word of an integer (00_scope.md R7). -/
def bitsW {W : Nat} (v : Int) : BitVec W := BitVec.ofInt W v

/-- A truth value as a result: 1 for true, 0 for false (10_state.md R23). -/
def truthBit (b : Bool) : Int := if b then 1 else 0

/-- The scalar register numbers of 10_state.md R21. -/
def ScalarReg.index : ScalarReg → Nat
  | .mod => 0
  | .len => 1
  | .root => 2
  | .opa => 3
  | .opb => 4
  | .opc => 5
  | .res => 6

/-- The stored word of a scalar register (10_state.md R21). -/
def StateAt.scalar {P : Params} (s : StateAt P) : ScalarReg → Word P
  | .mod => s.mod
  | .len => s.len
  | .root => s.root
  | .opa => s.opa
  | .opb => s.opb
  | .opc => s.opc
  | .res => s.res

/-- A scalar register takes a word. -/
def StateAt.setScalar {P : Params} (s : StateAt P) (r : ScalarReg) (w : Word P) : StateAt P :=
  match r with
  | .mod => { s with mod := w }
  | .len => { s with len := w }
  | .root => { s with root := w }
  | .opa => { s with opa := w }
  | .opb => { s with opb := w }
  | .opc => { s with opc := w }
  | .res => { s with res := w }

/-- The host can write every scalar register but `RES` (10_state.md R21, R23). -/
def ScalarReg.hostWritable (r : ScalarReg) : Bool := r != .res

/-- The register page (20_memory.md R42), by register number `addr[3:0]`. -/
def registerPage (n : Nat) : Target :=
  match n with
  | 0x0 => .scalar .mod
  | 0x1 => .scalar .len
  | 0x2 => .scalar .root
  | 0x3 => .scalar .opa
  | 0x4 => .scalar .opb
  | 0x5 => .scalar .opc
  | 0x6 => .scalar .res
  | 0x8 => .cmd
  | 0x9 => .status
  | 0xA => .ecmd
  | _ => .unmapped

/-- The address decode of 20_memory.md R42, by bit slices: `addr[AW-1]` selects the page. -/
def pageTarget {P : Params} (a : HostAddr P) : Target :=
  if a.getLsbD (P.AW - 1) then
    .buf (a.extractLsb' P.LOGNMAX 2).toFin (a.extractLsb' 0 P.LOGNMAX).toNat
  else if a.extractLsb' 4 (P.AW - 5) = 0 then registerPage (a.extractLsb' 0 4).toNat
  else .unmapped

/-- What a host address names. 20_memory.md R44 and R45 test it for `CMD` (0x8), `STATUS` (0x9) and `ECMD` (0xA)
before they ask for a buffer word, and 10_state.md R26 to R28 and 30_encoding.md R60 give these addresses for every
`LOGNMAX`; where that is at least 2 the page decode alone gives the same (assumption 13). -/
def target {P : Params} (a : HostAddr P) : Target :=
  if 0x8 ≤ a.toNat ∧ a.toNat ≤ 0xA then registerPage a.toNat else pageTarget a

/-- The host address of `BUF[k][i]` (20_memory.md R43). -/
def bufAddr (P : Params) (k : BufId) (i : Nat) : Nat := P.bufBase + k.val * P.NMAX + i

/-- The host address of `CMD` (20_memory.md R42). -/
def cmdAddr (P : Params) : HostAddr P := 0x8

end Sys2Proof.Machine
end

