-- ==== Sys2Proof/Machine/Flags.lean ====
section
/-!
DEFINITION. `STATUS`, the block's only flag register (10_state.md R26): its word and the error
codes. The only three ways it changes, fault entry, fault clear and reset, stand in Ops.lean.
-/

namespace Sys2Proof.Machine

/-- The numeric error codes (60_exceptions.md R160); 0 is no fault. -/
def CmdError.code : CmdError → BitVec 4
  | .invalidModulus => 1
  | .notInvertible => 2
  | .noGeneratorFound => 3
  | .preconditionViolated => 4
  | .illegalCommand => 5

/-- The word a host reads from `STATUS`: `zext_W({ERR[3:0], 0b000, FAULT})` (20_memory.md R44). -/
def StateAt.statusWord {P : Params} (s : StateAt P) : Word P :=
  (s.err ++ 0#3 ++ BitVec.ofBool s.fault).setWidth P.W

/-- The word a host reads from `ECMD`: `zext_W(ECMD[15:0])` (20_memory.md R44). -/
def StateAt.ecmdWord {P : Params} (s : StateAt P) : Word P := s.ecmd.setWidth P.W

end Sys2Proof.Machine
end

