-- ==== Sys2Proof/Machine/Ops.lean ====
section
/-!
DEFINITION. The shared operations: fault entry and the return from a fault, buffer words and
sequences, the reset event, and the checks the command rules share (30_encoding.md R69, R70; 42_transform.md R123 stands
in Transform.lean).
-/

namespace Sys2Proof.Machine

variable {P : Params}

/-- Fault entry, `raise E(cw)` (60_exceptions.md R163): the code, the flag and the command word, and
nothing else. -/
def StateAt.raise (s : StateAt P) (e : CmdError) (cw : CmdWord) : StateAt P :=
  { s with err := e.code, fault := true, ecmd := cw }

/-- Fault clear, the return from a fault (60_exceptions.md R166): `ECMD` keeps its value. -/
def StateAt.clearFault (s : StateAt P) : StateAt P := { s with fault := false, err := 0 }

/-- A host write of `STATUS` (20_memory.md R45): bit 0 = 1 clears the fault, else no effect. -/
def StateAt.writeStatus (s : StateAt P) (data : Word P) : StateAt P :=
  if data.getLsbD 0 then s.clearFault else s

/-- The word listed at an address, if one is: none where nothing was written since reset. -/
def Memory.find : Memory P → Nat → Option (Word P)
  | [], _ => none
  | (b, w) :: m, a => if b = a then some w else Memory.find m a

/-- A word stored at an address; the list stays in its canonical form. -/
def Memory.write : Memory P → Nat → Word P → Memory P
  | [], a, w => [(a, w)]
  | (b, v) :: m, a, w =>
    if b < a then (b, v) :: Memory.write m a w
    else if b = a then (a, w) :: m
    else (a, w) :: (b, v) :: m

/-- The word at a buffer address: the last one written since reset, else the free word of this reset
(10_state.md R33, 20_memory.md R52; assumption 3). -/
def StateAt.wordAt (s : StateAt P) (a : Nat) : Word P := (s.buf.find a).getD (Config.resetWord P s.resets a)

/-- `BUF[k][i]` as the stored word (10_state.md R24). -/
def StateAt.bufWord (s : StateAt P) (k : BufId) (i : Nat) : Word P := s.wordAt (bufAddr P k i)

/-- One buffer word takes a word. -/
def StateAt.setWord (s : StateAt P) (a : Nat) (w : Word P) : StateAt P := { s with buf := s.buf.write a w }

/-- The snapshot of a source (10_state.md R32): `BUF[k][0..n-1]`, read signed (20_memory.md R50). -/
def StateAt.readSeq (s : StateAt P) (k : BufId) (n : Nat) : List Int :=
  (List.range n).map fun i => sint (s.bufWord k i)

/-- Words stored at consecutive addresses from `a` on. -/
def Memory.writeFrom : Memory P → Nat → List (Word P) → Memory P
  | m, _, [] => m
  | m, a, w :: ws => Memory.writeFrom (m.write a w) (a + 1) ws

/-- The commit of a destination: `BUF[k][i] <- v[i]` for every index of `v`; words beyond are not
touched (10_state.md R24). -/
def StateAt.writeSeq (s : StateAt P) (k : BufId) (v : List Int) : StateAt P :=
  { s with buf := s.buf.writeFrom (bufAddr P k 0) (v.map bitsW) }

/-- `RES <- v`, the commit of a scalar command (10_state.md R23). -/
def StateAt.setRes (s : StateAt P) (v : Int) : StateAt P := { s with res := bitsW v }

/-- `ROOT <- v`, of GETROOT alone (41_root_finder.md R106). -/
def StateAt.setRoot (s : StateAt P) (v : Int) : StateAt P := { s with root := bitsW v }

/-- The reset event (70_reset_and_hazards.md R190): scalars, `STATUS` and `ECMD` take 0 and every buffer
word becomes unspecified, anew. The host's events and the answers given stay (assumption 5). -/
def StateAt.applyReset (s : StateAt P) : StateAt P :=
  { StateAt.reset P with pending := s.pending, responses := s.responses, resets := s.resets + 1 }

/-- The answer to a transaction joins the observation (00_scope.md R14). -/
def StateAt.respond (s : StateAt P) (r : Response P) : StateAt P := { s with responses := s.responses ++ [r] }

/-- The answer `OK` to a write. -/
def Response.done : Response P := ⟨true, none⟩

/-- The answer `ERR` to a write (20_memory.md R46). -/
def Response.refusedWrite : Response P := ⟨false, none⟩

/-- The answer `OK` to a read, with the word returned. -/
def Response.value (w : Word P) : Response P := ⟨true, some w⟩

/-- The answer `ERR` to a read: "a read that ends `ERR` returns 0" (20_memory.md R40). -/
def Response.refusedRead : Response P := ⟨false, some 0⟩

/-- A condition a command rule states, or the error it raises where it does not hold. -/
def require (holds : Bool) (e : CmdError) : Except CmdError Unit :=
  if holds then .ok () else .error e

/-- A function's value, or the error a command raises where the function has none. -/
def orRaise {α : Type} (e : CmdError) : Option α → Except CmdError α
  | some v => .ok v
  | none => .error e

/-- `P = MOD; if P <= 0: raise InvalidModulus(cw)`, common to all commands (30_encoding.md R69). -/
def StateAt.modulus (s : StateAt P) : Except CmdError Int :=
  if sint s.mod ≤ 0 then .error .invalidModulus else .ok (sint s.mod)

/-- `N = LEN; if N < 1: raise PreconditionViolated(cw)` (41_root_finder.md R106, R108). -/
def StateAt.positiveLen (s : StateAt P) : Except CmdError Nat :=
  if sint s.len < 1 then .error .preconditionViolated else .ok (sint s.len).toNat

/-- `check_len` of the sequence commands (30_encoding.md R70): `1 <= LEN <= NMAX`. -/
def StateAt.seqLen (s : StateAt P) : Except CmdError Nat :=
  if sint s.len < 1 ∨ sint s.len > P.NMAX then .error .preconditionViolated
  else .ok (sint s.len).toNat

/-- How one command ends (30_encoding.md R69): with the committed state its checks and function give, or with the
first error, which is raised with the command's own word. Nothing is written but by the commit or by `raise`, so a
fault is all-or-nothing (60_exceptions.md R164). -/
def StateAt.finish (s : StateAt P) (i : Instr) : Except CmdError (StateAt P) → StateAt P
  | .ok t => t
  | .error e => s.raise e (encode i)

/-- The run of one command (30_encoding.md R69) on what the block holds; its parameters stay. -/
def State.perform (s : State) (i : Instr) (body : StateAt s.params → Except CmdError (StateAt s.params)) :
    Host.Outcome State Fault Refusal :=
  .next ⟨s.params, s.contents.finish i (body s.contents)⟩

end Sys2Proof.Machine
end

