-- ==== Sys2Proof/Machine/ModArith.lean ====
section
/-!
DEFINITION. The ModularArithmetic family (40_modular_arithmetic.md): the function rules R80, R81, R84,
R86 and the commands TRUEMOD, MULMOD, POWMOD, INVMOD.
-/

namespace Sys2Proof.Machine

/-- `true_mod(v, m)` (R80): the floor modulus. -/
def trueMod (v m : Int) : Int := v % m

/-- `one(m) = 1 mod m` (00_scope.md R8). -/
def one (m : Int) : Int := trueMod 1 m

/-- `mulmod(a, b, m)` (R81): both factors normalized, the exact product, the remainder. -/
def mulmod (a b m : Int) : Int := trueMod (trueMod a m * trueMod b m) m

/-- The loop of `power_mod` (R84): exponent `e`, running result `r`, running square `s`; `fuel` bounds
the iterations, of which there are at most `e`. -/
def powerLoop (m : Int) : (fuel e : Nat) → (r s : Int) → Int
  | 0, _, r, _ => r
  | fuel + 1, e, r, s =>
    if e = 0 then r
    else powerLoop m fuel (e / 2) (if e % 2 = 1 then mulmod r s m else r) (mulmod s s m)

/-- `power_mod(b, e, m)` (R84), right-to-left binary exponentiation. -/
def powerMod (b : Int) (e : Nat) (m : Int) : Int := powerLoop m e e (one m) (trueMod b m)

/-- The loop of `inverse` (R86): the remainder pair `r0`, `r1` and the coefficient pair `t0`, `t1`;
`fuel` bounds the iterations, since `r1` falls strictly. -/
def euclidLoop : (fuel : Nat) → (r0 r1 t0 t1 : Int) → Int × Int
  | 0, r0, _, t0, _ => (r0, t0)
  | fuel + 1, r0, r1, t0, t1 =>
    if r1 = 0 then (r0, t0)
    else euclidLoop fuel r1 (r0 - r0 / r1 * r1) t1 (t0 - r0 / r1 * t1)

/-- `inverse(v, m)` (R86), extended Euclid; `none` is the rule's `NotInvertible`. -/
def inverse (v m : Int) : Option Int :=
  match euclidLoop m.toNat m (trueMod v m) 0 1 with
  | (r0, t0) => if r0 = 1 then some (trueMod t0 m) else none

/-- TRUEMOD (R82). -/
def execTrueMod (s : State) : Host.Outcome State Fault Refusal :=
  s.perform .trueMod fun c => do
    let p ← c.modulus
    pure (c.setRes (trueMod (sint c.opa) p))

/-- MULMOD (R83). -/
def execMulMod (s : State) : Host.Outcome State Fault Refusal :=
  s.perform .mulMod fun c => do
    let p ← c.modulus
    pure (c.setRes (mulmod (sint c.opa) (sint c.opb) p))

/-- POWMOD (R85): the exponent is `OPB`, not reduced. -/
def execPowMod (s : State) : Host.Outcome State Fault Refusal :=
  s.perform .powMod fun c => do
    let p ← c.modulus
    require (decide (0 ≤ sint c.opb)) .preconditionViolated
    pure (c.setRes (powerMod (sint c.opa) (sint c.opb).toNat p))

/-- INVMOD (R87). -/
def execInvMod (s : State) : Host.Outcome State Fault Refusal :=
  s.perform .invMod fun c => do
    let p ← c.modulus
    let u ← orRaise .notInvertible (inverse (sint c.opa) p)
    pure (c.setRes u)

end Sys2Proof.Machine
end

