-- ==== Sys2Proof/Machine/RootFinder.lean ====
section
/-!
DEFINITION. The RootFinder family (41_root_finder.md): the function rules R100, R101, R103, R105, R107
and the commands ISGEN, GEN, GETROOT, CHKROOT.
-/

namespace Sys2Proof.Machine

/-- `while q | n: n = n div q` (R100), for `n >= 1` and `q >= 2`; `fuel` bounds the iterations. -/
def divideOut (q : Nat) : (fuel n : Nat) → Nat
  | 0, n => n
  | fuel + 1, n => if n % q = 0 then divideOut q fuel (n / q) else n

/-- The trial division of R100 from candidate `q` on; `found` is the set so far. -/
def primesLoop : (fuel q n : Nat) → (found : List Nat) → List Nat
  | 0, _, _, found => found
  | fuel + 1, q, n, found =>
    if q * q ≤ n then
      if n % q = 0 then primesLoop fuel (q + 1) (divideOut q n n) (found ++ [q])
      else primesLoop fuel (q + 1) n found
    else if 1 < n then found ++ [n] else found

/-- `primes(n)` (R100), for `n >= 1`: the primes that divide `n`, each once. Only the set is
architectural. -/
def primes (n : Nat) : List Nat := primesLoop n 2 n []

/-- `is_generator(g, P)` (R101), for `P >= 2`. -/
def isGenerator (g p : Int) : Bool :=
  decide (powerMod (trueMod g p) (p - 1).toNat p = 1) &&
    (primes (p - 1).toNat).all fun q =>
      decide (powerMod (trueMod g p) ((p - 1).toNat / q) p ≠ 1)

/-- The scan of R103 from candidate `g` on, `fuel` candidates long. -/
def generatorScan (p : Int) : (fuel : Nat) → (g : Int) → Option Int
  | 0, _ => none
  | fuel + 1, g => if isGenerator g p then some g else generatorScan p fuel (g + 1)

/-- `generator(P)` (R103), for `P >= 2`: the scan over `1..P-1`; `none` is `NoGeneratorFound`. -/
def generator (p : Int) : Option Int := generatorScan p (p - 1).toNat 1

/-- `get_root(N, P)` (R105), for `N | (P - 1)`; `none` is `NoGeneratorFound`. -/
def rootOfOrder (n : Nat) (p : Int) : Option Int :=
  (generator p).map fun g => powerMod g ((p - 1).toNat / n) p

/-- The scan of `has_order` (R107): `t` is the current power of `h`, `left` the number of smaller powers
still to test. -/
def orderScan (h p : Int) : (left : Nat) → (t : Int) → Bool
  | 0, t => decide (t = one p)
  | left + 1, t => if t = one p then false else orderScan h p left (mulmod t h p)

/-- `has_order(w, N, P)` (R107), for `N >= 1`: `w` has exact multiplicative order `N`. -/
def hasOrder (w : Int) (n : Nat) (p : Int) : Bool :=
  orderScan (trueMod w p) p (n - 1) (trueMod w p)

/-- ISGEN (R102). -/
def execIsGen (s : State) : Host.Outcome State Fault Refusal :=
  s.perform .isGen fun c => do
    let p ← c.modulus
    require (decide (p ≠ 1)) .preconditionViolated
    pure (c.setRes (truthBit (isGenerator (sint c.opa) p)))

/-- GEN (R104). -/
def execGen (s : State) : Host.Outcome State Fault Refusal :=
  s.perform .gen fun c => do
    let p ← c.modulus
    require (decide (p ≠ 1)) .preconditionViolated
    let g ← orRaise .noGeneratorFound (generator p)
    pure (c.setRes g)

/-- GETROOT (R106): `RES` and `ROOT` take the same value. -/
def execGetRoot (s : State) : Host.Outcome State Fault Refusal :=
  s.perform .getRoot fun c => do
    let p ← c.modulus
    require (decide (p ≠ 1)) .preconditionViolated
    let n ← c.positiveLen
    require (decide ((p - 1).toNat % n = 0)) .preconditionViolated
    let w ← orRaise .noGeneratorFound (rootOfOrder n p)
    pure ((c.setRes w).setRoot w)

/-- CHKROOT (R108). -/
def execChkRoot (s : State) : Host.Outcome State Fault Refusal :=
  s.perform .chkRoot fun c => do
    let p ← c.modulus
    let n ← c.positiveLen
    pure (c.setRes (truthBit (hasOrder (sint c.root) n p)))

end Sys2Proof.Machine
end

