-- ==== Sys2Proof/Machine/Transform.lean ====
section
/-!
DEFINITION. The Transform family (42_transform.md): the function rules R120, R122, R125, the root check
R123 and the commands BFLY, NTT, INTT.
-/

namespace Sys2Proof.Machine

/-- `bfly(c, a, t, m)` (R120): one multiply-accumulate step. -/
def bflyCell (c a t m : Int) : Int := trueMod (trueMod c m + mulmod a t m) m

/-- The sum of R122 for output index `i`, over the elements from index `j` on. -/
def nttSum (p w : Int) (i : Nat) : (j : Nat) → (x : List Int) → Int
  | _, [] => 0
  | j, a :: x => trueMod a p * powerMod w (i * j) p + nttSum p w i (j + 1) x

/-- `ntt(X, N, P, w)` (R122), for a sequence of length `N`. It checks nothing. -/
def nttSeq (x : List Int) (n : Nat) (p w : Int) : List Int :=
  (List.range n).map fun i => trueMod (nttSum p w i 0 x) p

/-- `inv_ntt(X, N, P, w)` (R125): both inverses first, the root's before the length's; `none` is
`NotInvertible`. -/
def invNttSeq (x : List Int) (n : Nat) (p w : Int) : Option (List Int) :=
  match inverse w p with
  | none => none
  | some wi =>
    match inverse n p with
    | none => none
    | some ni => some ((nttSeq x n p wi).map fun y => mulmod y ni p)

/-- `check_root` of NTT, INTT and CONV (R123). -/
def StateAt.checkRoot {P : Params} (s : StateAt P) (n : Nat) (p : Int) : Except CmdError Unit :=
  require (hasOrder (sint s.root) n p) .preconditionViolated

/-- BFLY (R121). -/
def execBfly (s : State) : Host.Outcome State Fault Refusal :=
  s.perform .bfly fun c => do
    let p ← c.modulus
    pure (c.setRes (bflyCell (sint c.opc) (sint c.opa) (sint c.opb) p))

/-- NTT BUFd, BUFa (R124). -/
def execNtt (sd sa : BufId) (s : State) : Host.Outcome State Fault Refusal :=
  s.perform (.ntt sd sa) fun c => do
    let p ← c.modulus
    let n ← c.seqLen
    c.checkRoot n p
    pure (c.writeSeq sd (nttSeq (c.readSeq sa n) n p (trueMod (sint c.root) p)))

/-- INTT BUFd, BUFa (R126). -/
def execIntt (sd sa : BufId) (s : State) : Host.Outcome State Fault Refusal :=
  s.perform (.intt sd sa) fun c => do
    let p ← c.modulus
    let n ← c.seqLen
    c.checkRoot n p
    let z ← orRaise .notInvertible (invNttSeq (c.readSeq sa n) n p (trueMod (sint c.root) p))
    pure (c.writeSeq sd z)

end Sys2Proof.Machine
end

