-- ==== Sys2Proof/Machine/Convolution.lean ====
section
/-!
DEFINITION. The ConvolutionEngine family (43_convolution.md): the function rules R140, R142, R144 and the
commands PWMUL, CONV, CHKCONV.
-/

namespace Sys2Proof.Machine

/-- `pointwise(X, Y, N, P)` (R140), for two sequences of one length. -/
def pointwise (x y : List Int) (p : Int) : List Int := x.zipWith (fun a b => mulmod a b p) y

/-- `convolution(A, B, N, P, w)` (R142); `none` is `NotInvertible`. -/
def convolution (a b : List Int) (n : Nat) (p w : Int) : Option (List Int) :=
  invNttSeq (pointwise (nttSeq a n p w) (nttSeq b n p w) p) n p w

/-- The inner loop of R144 for the element `ai` at index `i`, over `B` from index `j` on:
`D[(i+j) mod N] = bfly(D[(i+j) mod N], A[i], B[j], P)`. -/
def convRow (n : Nat) (p ai : Int) (i : Nat) : (j : Nat) → (b d : List Int) → List Int
  | _, [], d => d
  | j, bj :: b, d => convRow n p ai i (j + 1) b (d.modify ((i + j) % n) fun c => bflyCell c ai bj p)

/-- The outer loop of R144, over `A` from index `i` on. -/
def convRows (n : Nat) (p : Int) (b : List Int) : (i : Nat) → (a d : List Int) → List Int
  | _, [], d => d
  | i, ai :: a, d => convRows n p b (i + 1) a (convRow n p ai i 0 b d)

/-- `check_conv(A, B, N, P)` (R144): the accumulation starts at 0. -/
def referenceConv (a b : List Int) (n : Nat) (p : Int) : List Int :=
  convRows n p b 0 a (List.replicate n 0)

/-- PWMUL BUFd, BUFa, BUFb (R141). -/
def execPwMul (sd sa sb : BufId) (s : State) : Host.Outcome State Fault Refusal :=
  s.perform (.pwMul sd sa sb) fun c => do
    let p ← c.modulus
    let n ← c.seqLen
    pure (c.writeSeq sd (pointwise (c.readSeq sa n) (c.readSeq sb n) p))

/-- CONV BUFd, BUFa, BUFb (R143). -/
def execConv (sd sa sb : BufId) (s : State) : Host.Outcome State Fault Refusal :=
  s.perform (.conv sd sa sb) fun c => do
    let p ← c.modulus
    let n ← c.seqLen
    c.checkRoot n p
    let d ← orRaise .notInvertible
      (convolution (c.readSeq sa n) (c.readSeq sb n) n p (trueMod (sint c.root) p))
    pure (c.writeSeq sd d)

/-- CHKCONV BUFd, BUFa, BUFb (R145). -/
def execChkConv (sd sa sb : BufId) (s : State) : Host.Outcome State Fault Refusal :=
  s.perform (.chkConv sd sa sb) fun c => do
    let p ← c.modulus
    let n ← c.seqLen
    pure (c.writeSeq sd (referenceConv (c.readSeq sa n) (c.readSeq sb n) n p))

end Sys2Proof.Machine
end

