-- ==== Sys2Proof/Machine/Dispatch.lean ====
section
/-! DEFINITION. The dispatch: one arm per command, each one direct call of its meaning. -/

namespace Sys2Proof.Machine

def exec (i : Instr) (s : State) : Host.Outcome State Fault Refusal :=
  match i with
  | .trueMod => Sys2Proof.Machine.execTrueMod s
  | .mulMod => Sys2Proof.Machine.execMulMod s
  | .powMod => Sys2Proof.Machine.execPowMod s
  | .invMod => Sys2Proof.Machine.execInvMod s
  | .bfly => Sys2Proof.Machine.execBfly s
  | .isGen => Sys2Proof.Machine.execIsGen s
  | .gen => Sys2Proof.Machine.execGen s
  | .getRoot => Sys2Proof.Machine.execGetRoot s
  | .chkRoot => Sys2Proof.Machine.execChkRoot s
  | .ntt sd sa => Sys2Proof.Machine.execNtt sd sa s
  | .intt sd sa => Sys2Proof.Machine.execIntt sd sa s
  | .pwMul sd sa sb => Sys2Proof.Machine.execPwMul sd sa sb s
  | .conv sd sa sb => Sys2Proof.Machine.execConv sd sa sb s
  | .chkConv sd sa sb => Sys2Proof.Machine.execChkConv sd sa sb s

end Sys2Proof.Machine
end

