-- ==== Sys2Proof/Machine/Port.lean ====
section
/-!
DEFINITION. The host port: `MemRead` and `MemWrite` (20_memory.md R44, R45), and the run of a command
word inside a write of `CMD` (30_encoding.md R69).
-/

namespace Sys2Proof.Machine

variable {P : Params}

/-- `RD addr` (20_memory.md R44): the answer; a read changes no state. -/
def hostRead (a : HostAddr P) (s : StateAt P) : Response P :=
  match target a with
  | .scalar r => .value (s.scalar r)
  | .cmd => .value 0
  | .status => .value s.statusWord
  | .ecmd => .value s.ecmdWord
  | .buf k i => .value (s.bufWord k i)
  | .unmapped => .refusedRead

/-- `run(data)` (30_encoding.md R69): decode, which comes before every other check, then the command. -/
def runCommand (data : Word P) (s : StateAt P) : Host.Outcome State Fault Refusal :=
  match decode data with
  | .error _ => .next ⟨P, s.raise .illegalCommand (cmdWord data)⟩
  | .ok i => exec i ⟨P, s⟩

/-- The command's write answered `OK`, whether the command succeeded or faulted (20_memory.md R45). -/
def answerCommand : Host.Outcome State Fault Refusal → Host.Outcome State Fault Refusal
  | .next t => .next ⟨t.params, t.contents.respond .done⟩
  | .fault r => .fault r
  | .refused r => .refused r

/-- `WR addr, data` (20_memory.md R45), with its answer. -/
def hostWrite (a : HostAddr P) (data : Word P) (s : StateAt P) : Host.Outcome State Fault Refusal :=
  match target a with
  | .scalar r =>
    if r.hostWritable then .next ⟨P, (s.setScalar r data).respond .done⟩
    else .next ⟨P, s.respond .refusedWrite⟩
  | .cmd =>
    if s.fault then .next ⟨P, s.respond .refusedWrite⟩ else answerCommand (runCommand data s)
  | .status => .next ⟨P, (s.writeStatus data).respond .done⟩
  | .ecmd => .next ⟨P, s.respond .refusedWrite⟩
  | .buf k i => .next ⟨P, (s.setWord (bufAddr P k i) data).respond .done⟩
  | .unmapped => .next ⟨P, s.respond .refusedWrite⟩

/-- One host event: a read, a write, or the reset (00_scope.md R10, 70_reset_and_hazards.md R190). -/
def hostEvent (e : HostEvent P) (s : StateAt P) : Host.Outcome State Fault Refusal :=
  match e with
  | .rd a => .next ⟨P, s.respond (hostRead a s)⟩
  | .wr a data => hostWrite a data s
  | .rst => .next ⟨P, s.applyReset⟩

end Sys2Proof.Machine
end

