-- ==== Sys2Proof/Machine/Step.lean ====
section
/-!
DEFINITION. One step: the next host event, whole (20_memory.md R49); with none the block is idle and
"all state survives idleness" (60_exceptions.md R171).
-/

namespace Sys2Proof.Machine

/-- One step of the machine. The events are a program in list order (30_encoding.md R66). -/
def step (s : State) : Host.Outcome State Fault Refusal :=
  match s.contents.pending with
  | [] => .next s
  | e :: rest => hostEvent e { s.contents with pending := rest }

/-- The state in which the next transaction is the write to `CMD` of the word whose low `nbits` bits
are `w`: a command is not fetched from a memory but is the data of that write (20_memory.md R55,
assumption 6). -/
def State.withFetchWord (s : State) (nbits w : Nat) : State :=
  { s with contents :=
      { s.contents with
        pending := .wr (cmdAddr s.params) (tableWord s.params nbits w) :: s.contents.pending } }

end Sys2Proof.Machine
end

