-- ==== Sys2Proof/Machine/Assembly.lean ====
section
/-!
DEFINITION. The spec's textual programs (30_encoding.md R66, R67): lines, pseudo-instructions, and the
transactions they stand for.
-/

namespace Sys2Proof.Machine

/-- A `<place>` of R66: a register name or `BUF<k>[<i>]`. -/
inductive Place where
  | scalar (r : ScalarReg)
  | cmd
  | status
  | ecmd
  | buf (k : BufId) (i : Nat)
  deriving DecidableEq, Repr

/-- A line of a program (R66), or a pseudo-instruction (R67). -/
inductive Line where
  /-- `WR <place>, <int>`. -/
  | wr (at_ : Place) (v : Int)
  /-- `RD <place>`. -/
  | rd (at_ : Place)
  /-- A command by its mnemonic and buffers. -/
  | command (i : Instr)
  /-- `LDSEQ BUF<k>, [v0, v1, ...]`. -/
  | ldseq (k : BufId) (v : List Int)
  /-- `RDSEQ BUF<k>, n`. -/
  | rdseq (k : BufId) (n : Nat)
  /-- `SETUP p, n, w`. -/
  | setup (p n w : Int)
  /-- `CLRF`. -/
  | clrf
  deriving DecidableEq, Repr

/-- `addr(<place>)` (R66), by the map of 20_memory.md R42 and R43. -/
def Place.addr (P : Params) : Place → HostAddr P
  | .scalar r => BitVec.ofNat _ r.index
  | .cmd => 0x8
  | .status => 0x9
  | .ecmd => 0xA
  | .buf k i => BitVec.ofNat _ (bufAddr P k i)

/-- A buffer place names a word of its buffer: `0 <= i < NMAX` (20_memory.md R43). -/
def Place.wellFormed (P : Params) : Place → Bool
  | .buf _ i => decide (i < P.NMAX)
  | _ => true

/-- An `<int>` lies in `[-2^(W-1), 2^W - 1]` (R66). -/
def intInRange (P : Params) (v : Int) : Bool :=
  decide (-2 ^ (P.W - 1) ≤ v) && decide (v ≤ 2 ^ P.W - 1)

/-- A line of a program is one the assembler admits (R66, R67). -/
def Line.wellFormed (P : Params) : Line → Bool
  | .wr q v => q.wellFormed P && intInRange P v
  | .rd q => q.wellFormed P
  | .command _ => true
  | .ldseq _ v => decide (v.length ≤ P.NMAX) && v.all (intInRange P)
  | .rdseq _ n => decide (n ≤ P.NMAX)
  | .setup p n w => intInRange P p && intInRange P n && intInRange P w
  | .clrf => true

/-- `WR <place>, <int>` as a transaction; an integer of `2^(W-1)` or more is the bit pattern (R66). -/
def writeTo (P : Params) (q : Place) (v : Int) : HostEvent P := .wr (q.addr P) (bitsW v)

/-- The writes of `LDSEQ` from index `i` on (R67). -/
def loadFrom (P : Params) (k : BufId) : (i : Nat) → List Int → List (HostEvent P)
  | _, [] => []
  | i, v :: vs => writeTo P (.buf k i) v :: loadFrom P k (i + 1) vs

/-- The transactions of one line (R66, R67). -/
def Line.assemble (P : Params) : Line → List (HostEvent P)
  | .wr q v => [writeTo P q v]
  | .rd q => [.rd (q.addr P)]
  | .command i => [.wr (cmdAddr P) (encodeWord P i)]
  | .ldseq k v => loadFrom P k 0 v
  | .rdseq k n => (List.range n).map fun i => .rd ((Place.buf k i).addr P)
  | .setup p n w =>
    [writeTo P (.scalar .mod) p, writeTo P (.scalar .len) n, writeTo P (.scalar .root) w]
  | .clrf => [writeTo P .status 1]

/-- A program: a finite list of lines, run in list order (R66). -/
def assemble (P : Params) (program : List Line) : List (HostEvent P) := program.flatMap (Line.assemble P)

end Sys2Proof.Machine
end

