-- ==== Sys2Proof/Safety.lean ====
section
/-!
DEFINITION. What a run is, when it has gone wrong (60_exceptions.md R175), and the invariant every step
keeps.
-/

namespace Sys2Proof.Machine

/-- The run of the pending program (R175): as many steps as there are events. -/
def State.runPending (s : State) : Host.Outcome State Fault Refusal :=
  Host.Core.run Sys2Proof.core s.contents.pending.length s

/-- The answers to the run's own transactions (R175), for a run from `s` that ended in `t`: those `t` holds after
the ones `s` held already, for a step only adds answers at the end. -/
def State.answersSince (s t : State) : List (Response t.params) :=
  t.contents.responses.drop s.contents.responses.length

/-- "A run has *gone wrong* if any transaction was answered `ERR` or if `STATUS.FAULT = 1` in the final
state" (R175), for the run from `s` that ended in `t`. What was answered before `s` is no part of it. -/
def State.goneWrong (s t : State) : Bool := t.contents.fault || (s.answersSince t).any fun r => !r.ok

/-- The state after fault entry with a code and a command word (60_exceptions.md R163), written out. -/
abbrev StateAt.afterFault {P : Params} (s : StateAt P) (code : BitVec 4) (cw : CmdWord) : StateAt P :=
  { s with fault := true, err := code, ecmd := cw }

/-- "`w` has exact multiplicative order `n`" modulo `p` (00_scope.md, glossary; 41_root_finder.md R107):
`w^n` is 1 and no smaller positive power is, 1 being read as `1 mod p` (90_conflicts.md C3). -/
abbrev ExactOrder (w : Int) (n : Nat) (p : Int) : Prop :=
  w ^ n % p = 1 % p ∧ ∀ k, k < n → 1 ≤ k → w ^ k % p ≠ 1 % p

/-- `g` is the least generator modulo `p` (41_root_finder.md R103). -/
def LeastGenerator (g p : Int) : Prop :=
  1 ≤ g ∧ g ≤ p - 1 ∧ ExactOrder g (p - 1).toNat p ∧
    ∀ h, 1 ≤ h → h < g → ¬ ExactOrder h (p - 1).toNat p

/-- From `s` to `t` the words `0 .. n-1` of `BUF[k]`, host addresses `2^(AW-1) + k * NMAX + i` (20_memory.md
R43), take the integers `v i`, and nothing else of the state changes: no register, and no word at any other
address. -/
def CommitsSeq {P : Params} (s t : StateAt P) (k : BufId) (n : Nat) (v : Nat → Int) : Prop :=
  t = { s with buf := t.buf } ∧
    (∀ i, i < n → t.wordAt (P.bufBase + k.val * P.NMAX + i) = BitVec.ofInt P.W (v i)) ∧
    ∀ a, (∀ i, i < n → a ≠ P.bufBase + k.val * P.NMAX + i) → t.wordAt a = s.wordAt a

/-- `BUF[k][i]` read signed (00_scope.md R8). -/
def StateAt.element {P : Params} (s : StateAt P) (k : BufId) (i : Nat) : Int :=
  (s.wordAt (P.bufBase + k.val * P.NMAX + i)).toInt

/-- The buffer a sequence command writes; a scalar command writes none (10_state.md R21, 20_memory.md R50). -/
def destination : Instr → Option BufId
  | .trueMod | .mulMod | .powMod | .invMod | .bfly | .isGen | .gen | .getRoot | .chkRoot => none
  | .ntt sd _ | .intt sd _ => some sd
  | .pwMul sd _ _ | .conv sd _ _ | .chkConv sd _ _ => some sd

/-- The six registers and the buffer words a command can read (00_scope.md R11); never `RES`, `STATUS`
or `ECMD`. -/
def StateAt.sameOperands {P : Params} (s t : StateAt P) : Prop :=
  s.mod = t.mod ∧ s.len = t.len ∧ s.root = t.root ∧ s.opa = t.opa ∧ s.opb = t.opb ∧ s.opc = t.opc ∧
    ∀ k i, i < P.NMAX → s.bufWord k i = t.bufWord k i

/-- The invariant: `ERR = 0 <-> FAULT = 0` and the code is one of R160 (10_state.md R26), `RES` has its
top bit 0 (40_modular_arithmetic.md R88), the buffers' list keeps its canonical form, and a refused read
returned 0 (20_memory.md R40). -/
abbrev StateAt.Inv {P : Params} (s : StateAt P) : Prop :=
  (s.err = 0 ↔ s.fault = false) ∧ s.err.toNat ≤ 5 ∧ s.res.msb = false ∧ s.buf.wf = true ∧
    ∀ r ∈ s.responses, r.ok = false → r.word = none ∨ r.word = some 0

/-- The invariant of what the block holds, whatever its parameters. -/
abbrev State.Inv (s : State) : Prop := s.contents.Inv

end Sys2Proof.Machine
end

