-- ==== Sys2Proof/Certificates/Slice0/Obligations.lean ====
section
/-!
DEFINITION. The statements, for all parameters `P` of 00_scope.md R4; `⟨P, s⟩` is the state of a block with the
parameters `P` that holds `s` (that no step changes them is ParametersKept). A command's statement gives its
word, its next state with the frame, and every error in the order of its rule; `%` is the floor modulus of
40_modular_arithmetic.md R80 (the divisor is positive wherever it is used).
-/

open Sys2Proof Sys2Proof.Machine

/-! ## The commands -/

/-- R82, TRUEMOD whole: encoding, result with frame, the one error. -/
def Obligations.TrueModRule : Prop :=
  ∀ P : Params,
  decode (BitVec.ofNat P.W 0x0001) = .ok .trueMod ∧
  (∀ s : StateAt P, 0 < s.mod.toInt →
    exec .trueMod ⟨P, s⟩ = .next ⟨P, { s with res := BitVec.ofInt P.W (s.opa.toInt % s.mod.toInt) }⟩) ∧
  (∀ s : StateAt P, s.mod.toInt ≤ 0 → exec .trueMod ⟨P, s⟩ = .next ⟨P, s.afterFault 1 0x0001⟩)

/-- R83, MULMOD whole: the exact double-width product, reduced. -/
def Obligations.MulModRule : Prop :=
  ∀ P : Params,
  decode (BitVec.ofNat P.W 0x0002) = .ok .mulMod ∧
  (∀ s : StateAt P, 0 < s.mod.toInt →
    exec .mulMod ⟨P, s⟩ = .next
      ⟨P, { s with res := BitVec.ofInt P.W (s.opa.toInt * s.opb.toInt % s.mod.toInt) }⟩) ∧
  (∀ s : StateAt P, s.mod.toInt ≤ 0 → exec .mulMod ⟨P, s⟩ = .next ⟨P, s.afterFault 1 0x0002⟩)

/-- R85, POWMOD whole: the exponent is `OPB`, unreduced, and must not be negative. -/
def Obligations.PowModRule : Prop :=
  ∀ P : Params,
  decode (BitVec.ofNat P.W 0x0003) = .ok .powMod ∧
  (∀ s : StateAt P, 0 < s.mod.toInt → 0 ≤ s.opb.toInt →
    exec .powMod ⟨P, s⟩ = .next
      ⟨P, { s with res := BitVec.ofInt P.W (s.opa.toInt ^ s.opb.toInt.toNat % s.mod.toInt) }⟩) ∧
  (∀ s : StateAt P, s.mod.toInt ≤ 0 → exec .powMod ⟨P, s⟩ = .next ⟨P, s.afterFault 1 0x0003⟩) ∧
  (∀ s : StateAt P, 0 < s.mod.toInt → s.opb.toInt < 0 →
    exec .powMod ⟨P, s⟩ = .next ⟨P, s.afterFault 4 0x0003⟩)

/-- R87, INVMOD whole: the inverse in `[0, MOD)` where there is one, else NotInvertible. -/
def Obligations.InvModRule : Prop :=
  ∀ P : Params,
  decode (BitVec.ofNat P.W 0x0004) = .ok .invMod ∧
  (∀ s : StateAt P, 0 < s.mod.toInt → Int.gcd (s.opa.toInt % s.mod.toInt) s.mod.toInt = 1 →
    ∃ u : Int, 0 ≤ u ∧ u < s.mod.toInt ∧ s.opa.toInt * u % s.mod.toInt = 1 % s.mod.toInt ∧
      exec .invMod ⟨P, s⟩ = .next ⟨P, { s with res := BitVec.ofInt P.W u }⟩) ∧
  (∀ s : StateAt P, s.mod.toInt ≤ 0 → exec .invMod ⟨P, s⟩ = .next ⟨P, s.afterFault 1 0x0004⟩) ∧
  (∀ s : StateAt P, 0 < s.mod.toInt → Int.gcd (s.opa.toInt % s.mod.toInt) s.mod.toInt ≠ 1 →
    exec .invMod ⟨P, s⟩ = .next ⟨P, s.afterFault 2 0x0004⟩)

/-- R121, BFLY whole: one multiply-accumulate step. -/
def Obligations.BflyRule : Prop :=
  ∀ P : Params,
  decode (BitVec.ofNat P.W 0x0005) = .ok .bfly ∧
  (∀ s : StateAt P, 0 < s.mod.toInt →
    exec .bfly ⟨P, s⟩ = .next
      ⟨P, { s with res := BitVec.ofInt P.W ((s.opc.toInt + s.opa.toInt * s.opb.toInt) % s.mod.toInt) }⟩) ∧
  (∀ s : StateAt P, s.mod.toInt ≤ 0 → exec .bfly ⟨P, s⟩ = .next ⟨P, s.afterFault 1 0x0005⟩)

/-- R102, ISGEN whole: true exactly when `OPA` has multiplicative order `MOD - 1` (R101), and a
composite `MOD` is no error: the answer is 0. -/
def Obligations.IsGenRule : Prop :=
  ∀ P : Params,
  decode (BitVec.ofNat P.W 0x0008) = .ok .isGen ∧
  (∀ s : StateAt P, 2 ≤ s.mod.toInt → ExactOrder s.opa.toInt (s.mod.toInt - 1).toNat s.mod.toInt →
    exec .isGen ⟨P, s⟩ = .next ⟨P, { s with res := 1 }⟩) ∧
  (∀ s : StateAt P, 2 ≤ s.mod.toInt → ¬ ExactOrder s.opa.toInt (s.mod.toInt - 1).toNat s.mod.toInt →
    exec .isGen ⟨P, s⟩ = .next ⟨P, { s with res := 0 }⟩) ∧
  (∀ s : StateAt P, 2 ≤ s.mod.toInt → ¬ Nat.Prime s.mod.toInt.toNat →
    exec .isGen ⟨P, s⟩ = .next ⟨P, { s with res := 0 }⟩) ∧
  (∀ s : StateAt P, s.mod.toInt ≤ 0 → exec .isGen ⟨P, s⟩ = .next ⟨P, s.afterFault 1 0x0008⟩) ∧
  (∀ s : StateAt P, s.mod.toInt = 1 → exec .isGen ⟨P, s⟩ = .next ⟨P, s.afterFault 4 0x0008⟩)

/-- R104, GEN whole: the least generator for a prime `MOD`, NoGeneratorFound exactly for a composite one. -/
def Obligations.GenRule : Prop :=
  ∀ P : Params,
  decode (BitVec.ofNat P.W 0x0009) = .ok .gen ∧
  (∀ s : StateAt P, 0 < s.mod.toInt → Nat.Prime s.mod.toInt.toNat →
    ∃ g : Int, LeastGenerator g s.mod.toInt ∧
      exec .gen ⟨P, s⟩ = .next ⟨P, { s with res := BitVec.ofInt P.W g }⟩) ∧
  (∀ s : StateAt P, s.mod.toInt ≤ 0 → exec .gen ⟨P, s⟩ = .next ⟨P, s.afterFault 1 0x0009⟩) ∧
  (∀ s : StateAt P, s.mod.toInt = 1 → exec .gen ⟨P, s⟩ = .next ⟨P, s.afterFault 4 0x0009⟩) ∧
  (∀ s : StateAt P, 2 ≤ s.mod.toInt → ¬ Nat.Prime s.mod.toInt.toNat →
    exec .gen ⟨P, s⟩ = .next ⟨P, s.afterFault 3 0x0009⟩)

/-- R106, GETROOT whole: `RES` and `ROOT` take `g^((MOD-1)/LEN)` for the least generator `g`; the errors in
their order. -/
def Obligations.GetRootRule : Prop :=
  ∀ P : Params,
  decode (BitVec.ofNat P.W 0x000A) = .ok .getRoot ∧
  (∀ s : StateAt P, 0 < s.mod.toInt → Nat.Prime s.mod.toInt.toNat → 1 ≤ s.len.toInt →
    s.len.toInt ∣ s.mod.toInt - 1 →
    ∃ g : Int, LeastGenerator g s.mod.toInt ∧
      exec .getRoot ⟨P, s⟩ = .next
        ⟨P, { s with
          res := BitVec.ofInt P.W (g ^ ((s.mod.toInt - 1) / s.len.toInt).toNat % s.mod.toInt)
          root := BitVec.ofInt P.W (g ^ ((s.mod.toInt - 1) / s.len.toInt).toNat % s.mod.toInt) }⟩) ∧
  (∀ s : StateAt P, s.mod.toInt ≤ 0 → exec .getRoot ⟨P, s⟩ = .next ⟨P, s.afterFault 1 0x000A⟩) ∧
  (∀ s : StateAt P, s.mod.toInt = 1 → exec .getRoot ⟨P, s⟩ = .next ⟨P, s.afterFault 4 0x000A⟩) ∧
  (∀ s : StateAt P, 2 ≤ s.mod.toInt → s.len.toInt < 1 →
    exec .getRoot ⟨P, s⟩ = .next ⟨P, s.afterFault 4 0x000A⟩) ∧
  (∀ s : StateAt P, 2 ≤ s.mod.toInt → 1 ≤ s.len.toInt → ¬ s.len.toInt ∣ s.mod.toInt - 1 →
    exec .getRoot ⟨P, s⟩ = .next ⟨P, s.afterFault 4 0x000A⟩) ∧
  (∀ s : StateAt P, 2 ≤ s.mod.toInt → 1 ≤ s.len.toInt → s.len.toInt ∣ s.mod.toInt - 1 →
    ¬ Nat.Prime s.mod.toInt.toNat → exec .getRoot ⟨P, s⟩ = .next ⟨P, s.afterFault 3 0x000A⟩)

/-- R108, CHKROOT whole: the answer 1 or 0, and no bound on `LEN` from above. -/
def Obligations.ChkRootRule : Prop :=
  ∀ P : Params,
  decode (BitVec.ofNat P.W 0x000B) = .ok .chkRoot ∧
  (∀ s : StateAt P, 0 < s.mod.toInt → 1 ≤ s.len.toInt →
    ExactOrder s.root.toInt s.len.toInt.toNat s.mod.toInt →
    exec .chkRoot ⟨P, s⟩ = .next ⟨P, { s with res := 1 }⟩) ∧
  (∀ s : StateAt P, 0 < s.mod.toInt → 1 ≤ s.len.toInt →
    ¬ ExactOrder s.root.toInt s.len.toInt.toNat s.mod.toInt →
    exec .chkRoot ⟨P, s⟩ = .next ⟨P, { s with res := 0 }⟩) ∧
  (∀ s : StateAt P, s.mod.toInt ≤ 0 → exec .chkRoot ⟨P, s⟩ = .next ⟨P, s.afterFault 1 0x000B⟩) ∧
  (∀ s : StateAt P, 0 < s.mod.toInt → s.len.toInt < 1 →
    exec .chkRoot ⟨P, s⟩ = .next ⟨P, s.afterFault 4 0x000B⟩)

/-- R124, NTT whole: `BUF[sd][i]` takes the transform sum of the source as it was; the errors in order. -/
def Obligations.NttRule : Prop :=
  ∀ (P : Params) (sd sa : BufId),
  decode (BitVec.ofNat P.W (sd.val * 4096 + sa.val * 256 + 0x10)) = .ok (.ntt sd sa) ∧
  (∀ (s : StateAt P) (n : Nat), 0 < s.mod.toInt → s.len.toInt = n → 1 ≤ n → n ≤ P.NMAX →
    ExactOrder s.root.toInt n s.mod.toInt →
    ∃ t, exec (.ntt sd sa) ⟨P, s⟩ = .next ⟨P, t⟩ ∧
      CommitsSeq s t sd n fun i =>
        (∑ j ∈ Finset.range n, s.element sa j * s.root.toInt ^ (i * j)) % s.mod.toInt) ∧
  (∀ s : StateAt P, s.mod.toInt ≤ 0 → exec (.ntt sd sa) ⟨P, s⟩ =
    .next ⟨P, s.afterFault 1 (BitVec.ofNat 16 (sd.val * 4096 + sa.val * 256 + 0x10))⟩) ∧
  (∀ s : StateAt P, 0 < s.mod.toInt → s.len.toInt < 1 ∨ P.NMAX < s.len.toInt → exec (.ntt sd sa) ⟨P, s⟩ =
    .next ⟨P, s.afterFault 4 (BitVec.ofNat 16 (sd.val * 4096 + sa.val * 256 + 0x10))⟩) ∧
  (∀ s : StateAt P, 0 < s.mod.toInt → 1 ≤ s.len.toInt → s.len.toInt ≤ P.NMAX →
    ¬ ExactOrder s.root.toInt s.len.toInt.toNat s.mod.toInt → exec (.ntt sd sa) ⟨P, s⟩ =
    .next ⟨P, s.afterFault 4 (BitVec.ofNat 16 (sd.val * 4096 + sa.val * 256 + 0x10))⟩)

/-- R126, INTT whole: the transform under the inverse root, scaled by the inverse of the length. -/
def Obligations.InttRule : Prop :=
  ∀ (P : Params) (sd sa : BufId),
  decode (BitVec.ofNat P.W (sd.val * 4096 + sa.val * 256 + 0x11)) = .ok (.intt sd sa) ∧
  (∀ (s : StateAt P) (n : Nat), 0 < s.mod.toInt → s.len.toInt = n → 1 ≤ n → n ≤ P.NMAX →
    ExactOrder s.root.toInt n s.mod.toInt → Int.gcd s.root.toInt s.mod.toInt = 1 →
    Int.gcd n s.mod.toInt = 1 →
    ∃ (t : StateAt P) (wi ni : Int), s.root.toInt * wi % s.mod.toInt = 1 % s.mod.toInt ∧
      n * ni % s.mod.toInt = 1 % s.mod.toInt ∧ exec (.intt sd sa) ⟨P, s⟩ = .next ⟨P, t⟩ ∧
      CommitsSeq s t sd n fun i =>
        (∑ j ∈ Finset.range n, s.element sa j * wi ^ (i * j)) * ni % s.mod.toInt) ∧
  (∀ s : StateAt P, s.mod.toInt ≤ 0 → exec (.intt sd sa) ⟨P, s⟩ =
    .next ⟨P, s.afterFault 1 (BitVec.ofNat 16 (sd.val * 4096 + sa.val * 256 + 0x11))⟩) ∧
  (∀ s : StateAt P, 0 < s.mod.toInt → s.len.toInt < 1 ∨ P.NMAX < s.len.toInt → exec (.intt sd sa) ⟨P, s⟩ =
    .next ⟨P, s.afterFault 4 (BitVec.ofNat 16 (sd.val * 4096 + sa.val * 256 + 0x11))⟩) ∧
  (∀ s : StateAt P, 0 < s.mod.toInt → 1 ≤ s.len.toInt → s.len.toInt ≤ P.NMAX →
    ¬ ExactOrder s.root.toInt s.len.toInt.toNat s.mod.toInt → exec (.intt sd sa) ⟨P, s⟩ =
    .next ⟨P, s.afterFault 4 (BitVec.ofNat 16 (sd.val * 4096 + sa.val * 256 + 0x11))⟩) ∧
  (∀ s : StateAt P, 0 < s.mod.toInt → 1 ≤ s.len.toInt → s.len.toInt ≤ P.NMAX →
    ExactOrder s.root.toInt s.len.toInt.toNat s.mod.toInt →
    Int.gcd s.root.toInt s.mod.toInt ≠ 1 ∨ Int.gcd s.len.toInt s.mod.toInt ≠ 1 →
    exec (.intt sd sa) ⟨P, s⟩ =
    .next ⟨P, s.afterFault 2 (BitVec.ofNat 16 (sd.val * 4096 + sa.val * 256 + 0x11))⟩)

/-- R141, PWMUL whole: elementwise products; no root is read. -/
def Obligations.PwMulRule : Prop :=
  ∀ (P : Params) (sd sa sb : BufId),
  decode (BitVec.ofNat P.W (sd.val * 4096 + sb.val * 1024 + sa.val * 256 + 0x12)) =
    .ok (.pwMul sd sa sb) ∧
  (∀ (s : StateAt P) (n : Nat), 0 < s.mod.toInt → s.len.toInt = n → 1 ≤ n → n ≤ P.NMAX →
    ∃ t, exec (.pwMul sd sa sb) ⟨P, s⟩ = .next ⟨P, t⟩ ∧
      CommitsSeq s t sd n fun i => s.element sa i * s.element sb i % s.mod.toInt) ∧
  (∀ s : StateAt P, s.mod.toInt ≤ 0 → exec (.pwMul sd sa sb) ⟨P, s⟩ =
    .next ⟨P, s.afterFault 1
      (BitVec.ofNat 16 (sd.val * 4096 + sb.val * 1024 + sa.val * 256 + 0x12))⟩) ∧
  (∀ s : StateAt P, 0 < s.mod.toInt → s.len.toInt < 1 ∨ P.NMAX < s.len.toInt →
    exec (.pwMul sd sa sb) ⟨P, s⟩ = .next ⟨P, s.afterFault 4
      (BitVec.ofNat 16 (sd.val * 4096 + sb.val * 1024 + sa.val * 256 + 0x12))⟩)

/-- R143, CONV whole: both transforms, their products, and the inverse transform, for every modulus
(composite ones too). -/
def Obligations.ConvRule : Prop :=
  ∀ (P : Params) (sd sa sb : BufId),
  decode (BitVec.ofNat P.W (sd.val * 4096 + sb.val * 1024 + sa.val * 256 + 0x13)) =
    .ok (.conv sd sa sb) ∧
  (∀ (s : StateAt P) (n : Nat), 0 < s.mod.toInt → s.len.toInt = n → 1 ≤ n → n ≤ P.NMAX →
    ExactOrder s.root.toInt n s.mod.toInt → Int.gcd s.root.toInt s.mod.toInt = 1 →
    Int.gcd n s.mod.toInt = 1 →
    ∃ (t : StateAt P) (wi ni : Int), s.root.toInt * wi % s.mod.toInt = 1 % s.mod.toInt ∧
      n * ni % s.mod.toInt = 1 % s.mod.toInt ∧ exec (.conv sd sa sb) ⟨P, s⟩ = .next ⟨P, t⟩ ∧
      CommitsSeq s t sd n fun k =>
        (∑ i ∈ Finset.range n,
          (∑ j ∈ Finset.range n, s.element sa j * s.root.toInt ^ (i * j)) *
          (∑ j ∈ Finset.range n, s.element sb j * s.root.toInt ^ (i * j)) * wi ^ (k * i)) *
        ni % s.mod.toInt) ∧
  (∀ s : StateAt P, s.mod.toInt ≤ 0 → exec (.conv sd sa sb) ⟨P, s⟩ =
    .next ⟨P, s.afterFault 1
      (BitVec.ofNat 16 (sd.val * 4096 + sb.val * 1024 + sa.val * 256 + 0x13))⟩) ∧
  (∀ s : StateAt P, 0 < s.mod.toInt → s.len.toInt < 1 ∨ P.NMAX < s.len.toInt →
    exec (.conv sd sa sb) ⟨P, s⟩ = .next ⟨P, s.afterFault 4
      (BitVec.ofNat 16 (sd.val * 4096 + sb.val * 1024 + sa.val * 256 + 0x13))⟩) ∧
  (∀ s : StateAt P, 0 < s.mod.toInt → 1 ≤ s.len.toInt → s.len.toInt ≤ P.NMAX →
    ¬ ExactOrder s.root.toInt s.len.toInt.toNat s.mod.toInt →
    exec (.conv sd sa sb) ⟨P, s⟩ = .next ⟨P, s.afterFault 4
      (BitVec.ofNat 16 (sd.val * 4096 + sb.val * 1024 + sa.val * 256 + 0x13))⟩) ∧
  (∀ s : StateAt P, 0 < s.mod.toInt → 1 ≤ s.len.toInt → s.len.toInt ≤ P.NMAX →
    ExactOrder s.root.toInt s.len.toInt.toNat s.mod.toInt →
    Int.gcd s.root.toInt s.mod.toInt ≠ 1 ∨ Int.gcd s.len.toInt s.mod.toInt ≠ 1 →
    exec (.conv sd sa sb) ⟨P, s⟩ = .next ⟨P, s.afterFault 2
      (BitVec.ofNat 16 (sd.val * 4096 + sb.val * 1024 + sa.val * 256 + 0x13))⟩)

/-- R145, CHKCONV whole: the cyclic convolution by its definition, for every modulus and length. -/
def Obligations.ChkConvRule : Prop :=
  ∀ (P : Params) (sd sa sb : BufId),
  decode (BitVec.ofNat P.W (sd.val * 4096 + sb.val * 1024 + sa.val * 256 + 0x14)) =
    .ok (.chkConv sd sa sb) ∧
  (∀ (s : StateAt P) (n : Nat), 0 < s.mod.toInt → s.len.toInt = n → 1 ≤ n → n ≤ P.NMAX →
    ∃ t, exec (.chkConv sd sa sb) ⟨P, s⟩ = .next ⟨P, t⟩ ∧
      CommitsSeq s t sd n fun k =>
        (∑ i ∈ Finset.range n, ∑ j ∈ Finset.range n,
          if (i + j) % n = k then s.element sa i * s.element sb j else 0) % s.mod.toInt) ∧
  (∀ s : StateAt P, s.mod.toInt ≤ 0 → exec (.chkConv sd sa sb) ⟨P, s⟩ =
    .next ⟨P, s.afterFault 1
      (BitVec.ofNat 16 (sd.val * 4096 + sb.val * 1024 + sa.val * 256 + 0x14))⟩) ∧
  (∀ s : StateAt P, 0 < s.mod.toInt → s.len.toInt < 1 ∨ P.NMAX < s.len.toInt →
    exec (.chkConv sd sa sb) ⟨P, s⟩ = .next ⟨P, s.afterFault 4
      (BitVec.ofNat 16 (sd.val * 4096 + sb.val * 1024 + sa.val * 256 + 0x14))⟩)

/-! ## Encoding -/

/-- R60, R61, R68: the decoder and the encoder agree in both directions, on every command with every
selector and on every written word. -/
def Obligations.DecodeEncodeAgree : Prop :=
  ∀ P : Params,
  (∀ i : Instr, decode (encodeWord P i) = .ok i) ∧
  ∀ (data : Word P) (i : Instr), decode data = .ok i →
    data = encodeWord P i ∧ cmdWord data = encode i

/-- R65: a written word is illegal exactly under conditions (a) to (e), read off the word as a number; and the
write of an illegal word faults with code 5, before the modulus is looked at (R168), `ECMD` taking the word's low
16 bits alone (R162). -/
def Obligations.IllegalWordsRule : Prop :=
  ∀ P : Params,
  (∀ data : Word P, (∀ i, decode data ≠ .ok i) ↔
    data.toNat / 65536 ≠ 0 ∨
    data.toNat % 256 ∉
      [0x01, 0x02, 0x03, 0x04, 0x05, 0x08, 0x09, 0x0A, 0x0B, 0x10, 0x11, 0x12, 0x13, 0x14] ∨
    data.toNat / 16384 % 4 ≠ 0 ∨
    (data.toNat % 256 < 0x10 ∧ data.toNat / 256 % 64 ≠ 0) ∨
    (data.toNat % 256 ∈ [0x10, 0x11] ∧ data.toNat / 1024 % 4 ≠ 0)) ∧
  (∀ (s : StateAt P) (data : Word P) (rest : List (HostEvent P)),
    s.pending = .wr 0x8 data :: rest → s.fault = false → (∀ i, decode data ≠ .ok i) →
    step ⟨P, s⟩ = .next
      ⟨P, { s with
        pending := rest
        fault := true
        err := 5
        ecmd := BitVec.ofNat 16 (data.toNat % 65536)
        responses := s.responses ++ [⟨true, none⟩] }⟩)

/-- R64: a 16-bit word is the command of a row exactly when `cw & mask = match`, for the fourteen rows, and
the row's used fields select its buffers. -/
def Obligations.OpcodeRowsByMaskAndMatch : Prop :=
  ∀ (P : Params) (cw : CmdWord),
    (decode (cw.setWidth P.W) = .ok .trueMod ↔ cw &&& 0xFFFF = 0x0001) ∧
    (decode (cw.setWidth P.W) = .ok .mulMod ↔ cw &&& 0xFFFF = 0x0002) ∧
    (decode (cw.setWidth P.W) = .ok .powMod ↔ cw &&& 0xFFFF = 0x0003) ∧
    (decode (cw.setWidth P.W) = .ok .invMod ↔ cw &&& 0xFFFF = 0x0004) ∧
    (decode (cw.setWidth P.W) = .ok .bfly ↔ cw &&& 0xFFFF = 0x0005) ∧
    (decode (cw.setWidth P.W) = .ok .isGen ↔ cw &&& 0xFFFF = 0x0008) ∧
    (decode (cw.setWidth P.W) = .ok .gen ↔ cw &&& 0xFFFF = 0x0009) ∧
    (decode (cw.setWidth P.W) = .ok .getRoot ↔ cw &&& 0xFFFF = 0x000A) ∧
    (decode (cw.setWidth P.W) = .ok .chkRoot ↔ cw &&& 0xFFFF = 0x000B) ∧
    (∀ sd sa : BufId, decode (cw.setWidth P.W) = .ok (.ntt sd sa) ↔
      cw &&& 0xCCFF = 0x0010 ∧ cw.toNat / 4096 % 4 = sd.val ∧ cw.toNat / 256 % 4 = sa.val) ∧
    (∀ sd sa : BufId, decode (cw.setWidth P.W) = .ok (.intt sd sa) ↔
      cw &&& 0xCCFF = 0x0011 ∧ cw.toNat / 4096 % 4 = sd.val ∧ cw.toNat / 256 % 4 = sa.val) ∧
    (∀ sd sa sb : BufId, decode (cw.setWidth P.W) = .ok (.pwMul sd sa sb) ↔
      cw &&& 0xC0FF = 0x0012 ∧ cw.toNat / 4096 % 4 = sd.val ∧ cw.toNat / 1024 % 4 = sb.val ∧
        cw.toNat / 256 % 4 = sa.val) ∧
    (∀ sd sa sb : BufId, decode (cw.setWidth P.W) = .ok (.conv sd sa sb) ↔
      cw &&& 0xC0FF = 0x0013 ∧ cw.toNat / 4096 % 4 = sd.val ∧ cw.toNat / 1024 % 4 = sb.val ∧
        cw.toNat / 256 % 4 = sa.val) ∧
    (∀ sd sa sb : BufId, decode (cw.setWidth P.W) = .ok (.chkConv sd sa sb) ↔
      cw &&& 0xC0FF = 0x0014 ∧ cw.toNat / 4096 % 4 = sd.val ∧ cw.toNat / 1024 % 4 = sb.val ∧
        cw.toNat / 256 % 4 = sa.val)

/-- Words of 95_test_vectors.md V14 and Part 3, one of each family, decode to the commands they stand for. -/
def Obligations.SpecWordsDecode : Prop :=
  ∀ P : Params,
  decode (BitVec.ofNat P.W 0x00000001) = .ok .trueMod ∧ decode (BitVec.ofNat P.W 0x0000000A) = .ok .getRoot ∧
  decode (BitVec.ofNat P.W 0x00001010) = .ok (.ntt 1 0) ∧
    decode (BitVec.ofNat P.W 0x00002111) = .ok (.intt 2 1) ∧
  decode (BitVec.ofNat P.W 0x00002412) = .ok (.pwMul 2 0 1) ∧
    decode (BitVec.ofNat P.W 0x00002413) = .ok (.conv 2 0 1) ∧
  decode (BitVec.ofNat P.W 0x00003414) = .ok (.chkConv 3 0 1) ∧
    decode (BitVec.ofNat P.W 0x00003F14) = .ok (.chkConv 3 3 3)

/-- R67: the four pseudo-instructions expand to the writes and reads of their rows. -/
def Obligations.PseudoInstructionExpansions : Prop :=
  ∀ P : Params,
  (∀ (k : BufId) (v : List Int), (Line.ldseq k v).assemble P =
    v.mapIdx fun i x => .wr (BitVec.ofNat P.AW (P.bufBase + k.val * P.NMAX + i)) (BitVec.ofInt P.W x)) ∧
  (∀ (k : BufId) (n : Nat), (Line.rdseq k n).assemble P =
    (List.range n).map fun i => .rd (BitVec.ofNat P.AW (P.bufBase + k.val * P.NMAX + i))) ∧
  (∀ p n w : Int, (Line.setup p n w).assemble P =
    [.wr 0x0 (BitVec.ofInt P.W p), .wr 0x1 (BitVec.ofInt P.W n), .wr 0x2 (BitVec.ofInt P.W w)]) ∧
  Line.clrf.assemble P = [.wr 0x9 1]

/-! ## The step and the host port -/

/-- R45, R69: when the next event writes a command's word to `CMD` and no fault is pending, the step is the
command's `exec`, after which the write is answered `OK`. -/
def Obligations.StepRunsDecodedCommand : Prop :=
  ∀ (P : Params) (s : StateAt P) (data : Word P) (rest : List (HostEvent P)) (i : Instr),
    s.pending = .wr 0x8 data :: rest → s.fault = false → decode data = .ok i →
    step ⟨P, s⟩ = match exec i ⟨P, { s with pending := rest }⟩ with
      | .next t =>
        .next ⟨t.params, { t.contents with responses := t.contents.responses ++ [⟨true, none⟩] }⟩
      | .fault r => .fault r
      | .refused r => .refused r

/-- R13, and the last line of 93_implementation_defined.md Part 1: every command and every step of the machine
answers a next state; nothing is stuck. -/
def Obligations.EveryStepAnswers : Prop :=
  (∀ (i : Instr) (s : State), ∃ t, exec i s = .next t) ∧ ∀ s : State, ∃ t, step s = .next t

/-- R4: a block's parameters are fixed for it: no command and no step changes them. -/
def Obligations.ParametersKept : Prop :=
  (∀ (i : Instr) (s t : State), exec i s = .next t → t.params = s.params) ∧
    ∀ s t : State, step s = .next t → t.params = s.params

/-- R171, R10: with no event pending the block is idle and keeps all its state. -/
def Obligations.IdleKeepsState : Prop :=
  ∀ s : State, s.contents.pending = [] → step s = .next s

/-- R44: what a read of each address answers; it changes nothing but the model's own queue and answers. The
addresses stand in the order of R44's pseudocode; that at `LOGNMAX = 1`, where R42 puts 0x8 to 0xF in the buffer page,
0x8 to 0xA are still the control registers and 0xB to 0xF are buffer words is assumption 13. -/
def Obligations.PortReadTable : Prop :=
  ∀ (P : Params) (s : StateAt P) (a : HostAddr P) (rest : List (HostEvent P)), s.pending = .rd a :: rest →
    step ⟨P, s⟩ = .next
      ⟨P, { s with
        pending := rest
        responses := s.responses ++
          [if a.toNat = 0x0 then ⟨true, some s.mod⟩
           else if a.toNat = 0x1 then ⟨true, some s.len⟩
           else if a.toNat = 0x2 then ⟨true, some s.root⟩
           else if a.toNat = 0x3 then ⟨true, some s.opa⟩
           else if a.toNat = 0x4 then ⟨true, some s.opb⟩
           else if a.toNat = 0x5 then ⟨true, some s.opc⟩
           else if a.toNat = 0x6 then ⟨true, some s.res⟩
           else if a.toNat = 0x8 then ⟨true, some 0⟩
           else if a.toNat = 0x9 then
             ⟨true, some (BitVec.ofNat P.W (16 * s.err.toNat + s.fault.toNat))⟩
           else if a.toNat = 0xA then ⟨true, some (BitVec.ofNat P.W s.ecmd.toNat)⟩
           else if P.bufBase ≤ a.toNat then ⟨true, some (s.wordAt a.toNat)⟩
           else ⟨false, some 0⟩] }⟩

/-- R45: what a write of each address does and answers. `done` and `err` are the two answers. That at
`LOGNMAX = 1`, where R42 puts 0x8 to 0xF in the buffer page, 0x8 to 0xA are still the control registers and 0xB to 0xF
are buffer words is assumption 13. -/
def Obligations.PortWriteTable : Prop :=
  ∀ (P : Params) (s : StateAt P) (a : HostAddr P) (d : Word P) (rest : List (HostEvent P)),
    s.pending = .wr a d :: rest →
    let done := s.responses ++ [⟨true, none⟩]
    let err := s.responses ++ [⟨false, none⟩]
    (a.toNat = 0x0 → step ⟨P, s⟩ = .next ⟨P, { s with pending := rest, responses := done, mod := d }⟩) ∧
    (a.toNat = 0x1 → step ⟨P, s⟩ = .next ⟨P, { s with pending := rest, responses := done, len := d }⟩) ∧
    (a.toNat = 0x2 → step ⟨P, s⟩ = .next ⟨P, { s with pending := rest, responses := done, root := d }⟩) ∧
    (a.toNat = 0x3 → step ⟨P, s⟩ = .next ⟨P, { s with pending := rest, responses := done, opa := d }⟩) ∧
    (a.toNat = 0x4 → step ⟨P, s⟩ = .next ⟨P, { s with pending := rest, responses := done, opb := d }⟩) ∧
    (a.toNat = 0x5 → step ⟨P, s⟩ = .next ⟨P, { s with pending := rest, responses := done, opc := d }⟩) ∧
    (a.toNat = 0x8 → s.fault = true →
      step ⟨P, s⟩ = .next ⟨P, { s with pending := rest, responses := err }⟩) ∧
    (a.toNat = 0x8 → s.fault = false →
      ∃ t, step ⟨P, s⟩ = .next ⟨P, { t with responses := done }⟩ ∧
        ((∃ i, decode d = .ok i ∧ exec i ⟨P, { s with pending := rest }⟩ = .next ⟨P, t⟩) ∨
          ((∀ i, decode d ≠ .ok i) ∧
            t = ({ s with pending := rest }).afterFault 5 (BitVec.ofNat 16 d.toNat)))) ∧
    (a.toNat = 0x9 → d.toNat % 2 = 1 →
      step ⟨P, s⟩ = .next ⟨P, { s with pending := rest, responses := done, fault := false, err := 0 }⟩) ∧
    (a.toNat = 0x9 → d.toNat % 2 = 0 →
      step ⟨P, s⟩ = .next ⟨P, { s with pending := rest, responses := done }⟩) ∧
    (P.bufBase ≤ a.toNat → 0xA < a.toNat →
      ∃ t, step ⟨P, s⟩ = .next ⟨P, t⟩ ∧ t = { s with pending := rest, responses := done, buf := t.buf } ∧
        t.wordAt a.toNat = d ∧ ∀ b, b ≠ a.toNat → t.wordAt b = s.wordAt b) ∧
    (a.toNat = 0x6 ∨ a.toNat = 0x7 ∨ a.toNat = 0xA ∨ (0xA < a.toNat ∧ a.toNat < P.bufBase) →
      step ⟨P, s⟩ = .next ⟨P, { s with pending := rest, responses := err }⟩)

/-- R46: `ERR` is answered in exactly the three cases (a), (b), (c), and then no state of the block changes. That at
`LOGNMAX = 1`, where R42 puts 0x8 to 0xF in the buffer page, `CMD` and `ECMD` keep 0x8 and 0xA and 0xB to 0xF are
mapped to buffer words is assumption 13. -/
def Obligations.RefusedExactly : Prop :=
  ∀ (P : Params) (s : StateAt P) (e : HostEvent P) (rest : List (HostEvent P)), s.pending = e :: rest →
    e ≠ .rst →
    ∃ (t : StateAt P) (r : Response P), step ⟨P, s⟩ = .next ⟨P, t⟩ ∧ t.responses = s.responses ++ [r] ∧
      (r.ok = false ↔
        (∃ a, (e = .rd a ∨ ∃ d, e = .wr a d) ∧ (a.toNat = 0x7 ∨ (0xA < a.toNat ∧ a.toNat < P.bufBase))) ∨
        (∃ a d, e = .wr a d ∧ (a.toNat = 0x6 ∨ a.toNat = 0xA)) ∨
        (∃ d, e = .wr 0x8 d ∧ s.fault = true)) ∧
      (r.ok = false → t = { s with pending := rest, responses := s.responses ++ [r] })

/-- R43: every address of the buffer page is a word of a buffer, and every word of every buffer is
host-writable and host-readable, a pending fault or not: a write followed by a read of `BUF[k][i]` returns the
word, and no other buffer word changes. At `LOGNMAX = 1` the three words whose R43 addresses are 0x8 to 0xA have no
address of their own, the control registers being there (assumption 13); for every larger `LOGNMAX` no buffer address
is that low. -/
def Obligations.BufferWriteReadBack : Prop :=
  ∀ P : Params,
  (∀ a : HostAddr P, P.bufBase ≤ a.toNat →
    ∃ (k : BufId) (i : Nat), i < P.NMAX ∧ a.toNat = P.bufBase + k.val * P.NMAX + i) ∧
  ∀ (s : StateAt P) (k : BufId) (i : Nat) (d : Word P) (rest : List (HostEvent P)), i < P.NMAX →
    0xA < P.bufBase + k.val * P.NMAX + i →
    s.pending = .wr (BitVec.ofNat P.AW (P.bufBase + k.val * P.NMAX + i)) d ::
      .rd (BitVec.ofNat P.AW (P.bufBase + k.val * P.NMAX + i)) :: rest →
    ∃ t u : StateAt P, step ⟨P, s⟩ = .next ⟨P, t⟩ ∧ step ⟨P, t⟩ = .next ⟨P, u⟩ ∧
      u.responses = s.responses ++ [⟨true, none⟩, ⟨true, some d⟩] ∧
      u = { s with pending := rest, responses := u.responses, buf := u.buf } ∧
      u.bufWord k i = d ∧
      ∀ (k' : BufId) (i' : Nat), i' < P.NMAX → (k', i') ≠ (k, i) → u.bufWord k' i' = s.bufWord k' i'

/-! ## Faults and reset -/

/-- R165: in the fault state a `CMD` write is refused and changes nothing; every transaction on another
address but `STATUS` does and answers what it would without the fault. -/
def Obligations.FaultStateRule : Prop :=
  ∀ P : Params,
  (∀ (s : StateAt P) (d : Word P) (rest : List (HostEvent P)), s.fault = true →
    s.pending = .wr 0x8 d :: rest →
    step ⟨P, s⟩ = .next ⟨P, { s with pending := rest, responses := s.responses ++ [⟨false, none⟩] }⟩) ∧
  ∀ (s t : StateAt P) (e : HostEvent P) (rest : List (HostEvent P)), s.fault = true → s.pending = e :: rest →
    e ≠ .rst → (∀ d, e ≠ .wr 0x8 d ∧ e ≠ .wr 0x9 d) → e ≠ .rd 0x9 → step ⟨P, s⟩ = .next ⟨P, t⟩ →
    t.fault = true ∧ step ⟨P, { s with fault := false }⟩ = .next ⟨P, { t with fault := false }⟩

/-- R167: while a fault is pending, `STATUS.ERR` and `ECMD` keep describing it: every step but a clear or a
reset keeps all three. -/
def Obligations.FirstFaultKept : Prop :=
  ∀ (P : Params) (s t : StateAt P), s.fault = true → step ⟨P, s⟩ = .next ⟨P, t⟩ →
    (∀ d rest, s.pending = .wr 0x9 d :: rest → d.toNat % 2 = 0) →
    (∀ rest, s.pending ≠ .rst :: rest) →
    t.fault = true ∧ t.err = s.err ∧ t.ecmd = s.ecmd

/-- R166: the fault clear clears `FAULT` and `ERR`, keeps `ECMD`, is answered `OK`, and the next command is
accepted; with no fault pending it changes nothing (in the states of the invariant, where `ERR` is then 0). -/
def Obligations.FaultClearRule : Prop :=
  ∀ P : Params,
  (∀ (s : StateAt P) (d : Word P) (rest : List (HostEvent P)), s.pending = .wr 0x9 d :: rest → d.toNat % 2 = 1 →
    step ⟨P, s⟩ = .next ⟨P, { s with
      pending := rest, fault := false, err := 0, responses := s.responses ++ [⟨true, none⟩] }⟩) ∧
  (∀ (s : StateAt P) (d : Word P) (rest : List (HostEvent P)), s.pending = .wr 0x9 d :: rest → d.toNat % 2 = 0 →
    step ⟨P, s⟩ = .next ⟨P, { s with pending := rest, responses := s.responses ++ [⟨true, none⟩] }⟩) ∧
  (∀ (s : StateAt P) (d : Word P) (rest : List (HostEvent P)), s.pending = .wr 0x9 d :: rest → s.Inv →
    s.fault = false →
      step ⟨P, s⟩ = .next ⟨P, { s with pending := rest, responses := s.responses ++ [⟨true, none⟩] }⟩) ∧
  (∀ (s : StateAt P) (d c : Word P) (rest : List (HostEvent P)), s.pending = .wr 0x9 d :: .wr 0x8 c :: rest →
    d.toNat % 2 = 1 →
    ∃ t u : StateAt P, step ⟨P, s⟩ = .next ⟨P, t⟩ ∧ step ⟨P, t⟩ = .next ⟨P, u⟩ ∧
      u.responses = s.responses ++ [⟨true, none⟩, ⟨true, none⟩])

/-- R164: a command that faults writes none of its results and only `STATUS` and `ECMD` change; a command that
does not fault leaves `STATUS` and `ECMD` as they were (R26). -/
def Obligations.FaultsAllOrNothing : Prop :=
  ∀ (P : Params) (i : Instr) (s t : StateAt P), s.fault = false → exec i ⟨P, s⟩ = .next ⟨P, t⟩ →
    (t.fault = true → ∃ code : BitVec 4, code ≠ 0 ∧ t = s.afterFault code (encode i)) ∧
    (t.fault = false → t.err = s.err ∧ t.ecmd = s.ecmd)

/-- R21: no command changes `MOD`, `LEN`, `OPA`, `OPB` or `OPC`; only GETROOT changes `ROOT`; a sequence
command does not write `RES`; a scalar command writes no buffer; none touches the host's side. -/
def Obligations.OperandRegistersKept : Prop :=
  ∀ (P : Params) (i : Instr) (s t : StateAt P), exec i ⟨P, s⟩ = .next ⟨P, t⟩ →
    t.mod = s.mod ∧ t.len = s.len ∧ t.opa = s.opa ∧ t.opb = s.opb ∧ t.opc = s.opc ∧
    (i ≠ .getRoot → t.root = s.root) ∧ ((destination i).isSome → t.res = s.res) ∧
    (destination i = none → t.buf = s.buf) ∧
    t.pending = s.pending ∧ t.responses = s.responses ∧ t.resets = s.resets

/-- R24, R50: a command writes no buffer word but those at index 0 to `LEN - 1` of its destination. -/
def Obligations.WritesOnlyDestination : Prop :=
  ∀ (P : Params) (i : Instr) (s t : StateAt P) (a : Nat), exec i ⟨P, s⟩ = .next ⟨P, t⟩ →
    t.wordAt a ≠ s.wordAt a →
    ∃ sd : BufId, destination i = some sd ∧ P.bufBase + sd.val * P.NMAX ≤ a ∧
      ((a - (P.bufBase + sd.val * P.NMAX) : Nat) : Int) < s.len.toInt ∧ a < P.bufBase + sd.val * P.NMAX + P.NMAX

/-- R23: after a successful scalar command `RES` is a field element in `[0, MOD)`, or, for ISGEN and CHKROOT,
the truth value 0 or 1; a sequence command and a faulting command leave `RES`. -/
def Obligations.ResultRange : Prop :=
  ∀ (P : Params) (i : Instr) (s t : StateAt P), s.fault = false → exec i ⟨P, s⟩ = .next ⟨P, t⟩ →
    (t.fault = false → destination i = none →
      (i = .isGen ∨ i = .chkRoot → t.res = 0 ∨ t.res = 1) ∧
      (i ≠ .isGen → i ≠ .chkRoot → 0 ≤ t.res.toInt ∧ t.res.toInt < s.mod.toInt)) ∧
    (t.fault = true ∨ (destination i).isSome → t.res = s.res)

/-- R190 with the model's choices of assumptions 3 and 5: the reset event sets every scalar, `STATUS` and `ECMD`
to 0 and forgets every written buffer word; the free words are those of a new reset. -/
def Obligations.ResetEvent : Prop :=
  ∀ (P : Params) (s : StateAt P) (rest : List (HostEvent P)), s.pending = .rst :: rest →
    ∃ t, step ⟨P, s⟩ = .next ⟨P, t⟩ ∧ t.mod = 0 ∧ t.len = 0 ∧ t.root = 0 ∧ t.opa = 0 ∧ t.opb = 0 ∧ t.opc = 0 ∧
      t.res = 0 ∧ t.fault = false ∧ t.err = 0 ∧ t.ecmd = 0 ∧
      (∀ a, t.wordAt a = Config.resetWord P (s.resets + 1) a) ∧
      t.pending = rest ∧ t.responses = s.responses ∧ t.resets = s.resets + 1

/-- R33: every register and flag is 0 after reset, and (the model's choice, assumptions 3 and 5) no buffer word is
written and no event is pending or answered; the fixed name `State.reset` is that of the default parameters
(assumption 1). -/
def Obligations.ResetValues : Prop :=
  (∀ P : Params, let s := StateAt.reset P
    s.mod = 0 ∧ s.len = 0 ∧ s.root = 0 ∧ s.opa = 0 ∧ s.opb = 0 ∧ s.opc = 0 ∧ s.res = 0 ∧ s.fault = false ∧
    s.err = 0 ∧ s.ecmd = 0 ∧ s.buf = [] ∧ s.pending = [] ∧ s.responses = []) ∧
  State.reset = ⟨.standard, .reset .standard⟩ ∧ State.reset.params.W = 32 ∧ State.reset.params.LOGNMAX = 10

/-! ## Invariants and whole-machine properties -/

/-- The invariant of Safety.lean (R26, R160, R88, R40 and the canonical form of the buffers) is kept by every
step, from every state that has it. -/
def Obligations.StepKeepsInv : Prop :=
  ∀ s t : State, s.Inv → step s = .next t → t.Inv

/-- The invariant holds at reset, whatever the parameters. -/
def Obligations.ResetHasInv : Prop := State.reset.Inv ∧ ∀ P : Params, (StateAt.reset P).Inv

/-- R11: what a command does depends on its word, the six operand registers and the buffers alone: two states
that agree on them fault alike or write alike, whatever `RES`, `ECMD`, `ERR` and the buffers' lists hold. -/
def Obligations.CommandsArePure : Prop :=
  ∀ (P : Params) (i : Instr) (s s' t t' : StateAt P), s.sameOperands s' → s.fault = false → s'.fault = false →
    exec i ⟨P, s⟩ = .next ⟨P, t⟩ → exec i ⟨P, s'⟩ = .next ⟨P, t'⟩ →
    t.fault = t'.fault ∧ (t.fault = true → t.err = t'.err ∧ t.ecmd = t'.ecmd) ∧ t.root = t'.root ∧
    (∀ k j, j < P.NMAX → t.bufWord k j = t'.bufWord k j) ∧
    (t.res = t'.res ∨ (t.res = s.res ∧ t'.res = s'.res))

/-- R175, R197: the run of any finite list of events ends after as many steps as there are events, each
transaction answered once, the earlier answers kept. -/
def Obligations.EveryRunEnds : Prop :=
  ∀ (P : Params) (s : StateAt P), ∃ t : StateAt P, State.runPending ⟨P, s⟩ = .next ⟨P, t⟩ ∧ t.pending = [] ∧
    s.responses <+: t.responses ∧
    t.responses.length = s.responses.length + (s.pending.filter (· ≠ .rst)).length

/-- R175: a run has gone wrong exactly if one of its own transactions was answered `ERR` or `FAULT` is 1 at its
end; what was answered before its start state makes no difference. -/
def Obligations.RunCountsItsOwnAnswers : Prop :=
  ∀ (P : Params) (s t : StateAt P), State.runPending ⟨P, s⟩ = .next ⟨P, t⟩ →
    (State.goneWrong ⟨P, s⟩ ⟨P, t⟩ = true ↔
      t.fault = true ∨ ∃ own, t.responses = s.responses ++ own ∧ ∃ r ∈ own, r.ok = false) ∧
    ∀ before : List (Response P), ∃ u : StateAt P,
      State.runPending ⟨P, { s with responses := before }⟩ = .next ⟨P, u⟩ ∧
      State.goneWrong ⟨P, { s with responses := before }⟩ ⟨P, u⟩ = State.goneWrong ⟨P, s⟩ ⟨P, t⟩

/-! ## What the functions compute -/

/-- R90 (a) to (d): exponentiation and inverse correctness, and the source's values. -/
def Obligations.PowerAndInverseCorrect : Prop :=
  (∀ (b : Int) (e : Nat) (m : Int), 0 ≤ b → 0 < m →
    powerMod b e m = (List.replicate e b).prod % m) ∧
  (∀ v m : Int, 0 < m → Int.gcd (v % m) m = 1 →
    ∃ u, inverse v m = some u ∧ 0 ≤ u ∧ u < m ∧ v * u % m = 1 % m) ∧
  inverse 2 3 = some 2 ∧ inverse 2 5 = some 3 ∧ inverse 2 7 = some 4 ∧ inverse 2 11 = some 6 ∧
  inverse 2 13 = some 7 ∧ inverse 4 8 = none

/-- R100: the factor unit finds exactly the primes that divide `n`, each once. -/
def Obligations.PrimesAreThePrimeFactors : Prop :=
  ∀ n : Nat, 1 ≤ n → (primes n).Nodup ∧ ∀ q, q ∈ primes n ↔ q.Prime ∧ q ∣ n

/-- R109: for a prime modulus GETROOT leaves in `ROOT` a root of exact order `LEN`, which CHKROOT confirms, and a
second GETROOT changes nothing. -/
def Obligations.GetRootGivesExactOrder : Prop :=
  ∀ (P : Params) (s : StateAt P), 0 < s.mod.toInt → Nat.Prime s.mod.toInt.toNat → 1 ≤ s.len.toInt →
    s.len.toInt ∣ s.mod.toInt - 1 →
    ∃ t : StateAt P, exec .getRoot ⟨P, s⟩ = .next ⟨P, t⟩ ∧
        ExactOrder t.root.toInt s.len.toInt.toNat s.mod.toInt ∧
      exec .chkRoot ⟨P, t⟩ = .next ⟨P, { t with res := 1 }⟩ ∧ exec .getRoot ⟨P, t⟩ = .next ⟨P, t⟩

/-- R127: the engine's schedule, which multiplies a running twiddle and never forms `i * j`, gives the values of
the transform sum R122. -/
def Obligations.EngineScheduleGivesNtt : Prop :=
  ∀ (x : List Int) (n : Nat) (p w : Int), 0 < p →
    nttSeq x n p w = (List.range n).map fun i =>
      (x.foldl (fun ct a => (bflyCell ct.1 a ct.2 p, mulmod ct.2 (powerMod w i p) p))
        ((0 : Int), one p)).1

/-- R128: (a) for a prime modulus INTT after NTT gives back the source, reduced; (b) the source's concrete
scenario; (c) two NTT commands with the same registers and source contents write the same destination contents. -/
def Obligations.NttRoundTrip : Prop :=
  ∀ P : Params,
  (∀ (s : StateAt P) (sa sb sc : BufId) (n : Nat), 0 < s.mod.toInt → Nat.Prime s.mod.toInt.toNat →
    s.len.toInt = n → 1 ≤ n → n ≤ P.NMAX → ExactOrder s.root.toInt n s.mod.toInt →
    ∃ t u : StateAt P, exec (.ntt sb sa) ⟨P, s⟩ = .next ⟨P, t⟩ ∧ exec (.intt sc sb) ⟨P, t⟩ = .next ⟨P, u⟩ ∧
      ∀ i, i < n → u.bufWord sc i = BitVec.ofInt P.W (s.element sa i % s.mod.toInt)) ∧
  (nttSeq [2, 3, 3] 3 7 2 = [1, 6, 6] ∧ invNttSeq [1, 6, 6] 3 7 2 = some [2, 3, 3]) ∧
  (∀ (s s' t t' : StateAt P) (sa sa' sd sd' : BufId), s.mod = s'.mod → s.len = s'.len → s.root = s'.root →
    (∀ j : Nat, (j : Int) < s.len.toInt → s.bufWord sa j = s'.bufWord sa' j) →
    s.fault = false → s'.fault = false →
    exec (.ntt sd sa) ⟨P, s⟩ = .next ⟨P, t⟩ → exec (.ntt sd' sa') ⟨P, s'⟩ = .next ⟨P, t'⟩ →
    t.fault = t'.fault ∧ (t.fault = false →
      ∀ i : Nat, (i : Int) < s.len.toInt → t.bufWord sd i = t'.bufWord sd' i))

/-- R146 (a), (b): for a prime modulus CONV and CHKCONV write the same sequence; with `LEN = 1` CONV writes the
product, whatever the modulus. -/
def Obligations.ConvMatchesReference : Prop :=
  ∀ P : Params,
  (∀ (s : StateAt P) (sd sd' sa sb : BufId) (n : Nat), 0 < s.mod.toInt → Nat.Prime s.mod.toInt.toNat →
    s.len.toInt = n → 1 ≤ n → n ≤ P.NMAX → ExactOrder s.root.toInt n s.mod.toInt →
    ∃ t u : StateAt P, exec (.conv sd sa sb) ⟨P, s⟩ = .next ⟨P, t⟩ ∧
        exec (.chkConv sd' sa sb) ⟨P, s⟩ = .next ⟨P, u⟩ ∧
      t.fault = s.fault ∧ u.fault = s.fault ∧ ∀ i, i < n → t.bufWord sd i = u.bufWord sd' i) ∧
  ∀ (s : StateAt P) (sd sa sb : BufId), 0 < s.mod.toInt → s.len = 1 →
    s.root.toInt % s.mod.toInt = 1 % s.mod.toInt →
    ∃ t : StateAt P, exec (.conv sd sa sb) ⟨P, s⟩ = .next ⟨P, t⟩ ∧ t.fault = s.fault ∧
      t.bufWord sd 0 = BitVec.ofInt P.W (s.element sa 0 * s.element sb 0 % s.mod.toInt)

/-- R147: CONV does what NTT, NTT, PWMUL and INTT do in sequence, for any two spare buffers; a NotInvertible fault
arrives at the INTT. -/
def Obligations.ConvIsFourCommands : Prop :=
  ∀ (P : Params) (s t : StateAt P) (d a b x y : BufId), x ≠ y → x ≠ b → y ≠ a → s.fault = false →
    0 < s.mod.toInt → 1 ≤ s.len.toInt → s.len.toInt ≤ P.NMAX →
    ExactOrder s.root.toInt s.len.toInt.toNat s.mod.toInt →
    exec (.conv d a b) ⟨P, s⟩ = .next ⟨P, t⟩ →
    ∃ t₁ t₂ t₃ t₄ : StateAt P, exec (.ntt x a) ⟨P, s⟩ = .next ⟨P, t₁⟩ ∧
        exec (.ntt y b) ⟨P, t₁⟩ = .next ⟨P, t₂⟩ ∧
      exec (.pwMul x x y) ⟨P, t₂⟩ = .next ⟨P, t₃⟩ ∧ exec (.intt d x) ⟨P, t₃⟩ = .next ⟨P, t₄⟩ ∧
      t₃.fault = false ∧ t₄.fault = t.fault ∧ t₄.err = t.err ∧
      (t.fault = false → ∀ i : Nat, (i : Int) < s.len.toInt → t₄.bufWord d i = t.bufWord d i)
end

