-- ==== Sys2Proof/Laws/State.lean ====
section
/-!
SUPPORT. One lemma per field per update of the state, true by definition.
-/

namespace Sys2Proof.Machine

variable {P : Params}

/-! ### `raise` (60_exceptions.md R163) -/

@[simp] theorem StateAt.raise_mod (s : StateAt P) (e : CmdError) (cw : CmdWord) : (s.raise e cw).mod = s.mod := rfl
@[simp] theorem StateAt.raise_len (s : StateAt P) (e : CmdError) (cw : CmdWord) : (s.raise e cw).len = s.len := rfl
@[simp] theorem StateAt.raise_root (s : StateAt P) (e : CmdError) (cw : CmdWord) : (s.raise e cw).root = s.root := rfl
@[simp] theorem StateAt.raise_opa (s : StateAt P) (e : CmdError) (cw : CmdWord) : (s.raise e cw).opa = s.opa := rfl
@[simp] theorem StateAt.raise_opb (s : StateAt P) (e : CmdError) (cw : CmdWord) : (s.raise e cw).opb = s.opb := rfl
@[simp] theorem StateAt.raise_opc (s : StateAt P) (e : CmdError) (cw : CmdWord) : (s.raise e cw).opc = s.opc := rfl
@[simp] theorem StateAt.raise_res (s : StateAt P) (e : CmdError) (cw : CmdWord) : (s.raise e cw).res = s.res := rfl
@[simp] theorem StateAt.raise_fault (s : StateAt P) (e : CmdError) (cw : CmdWord) : (s.raise e cw).fault = true := rfl
@[simp] theorem StateAt.raise_err (s : StateAt P) (e : CmdError) (cw : CmdWord) : (s.raise e cw).err = e.code := rfl
@[simp] theorem StateAt.raise_ecmd (s : StateAt P) (e : CmdError) (cw : CmdWord) : (s.raise e cw).ecmd = cw := rfl
@[simp] theorem StateAt.raise_buf (s : StateAt P) (e : CmdError) (cw : CmdWord) : (s.raise e cw).buf = s.buf := rfl
@[simp] theorem StateAt.raise_pending (s : StateAt P) (e : CmdError) (cw : CmdWord) : (s.raise e cw).pending = s.pending := rfl
@[simp] theorem StateAt.raise_responses (s : StateAt P) (e : CmdError) (cw : CmdWord) : (s.raise e cw).responses = s.responses := rfl
@[simp] theorem StateAt.raise_resets (s : StateAt P) (e : CmdError) (cw : CmdWord) : (s.raise e cw).resets = s.resets := rfl

/-! ### The fault clear (60_exceptions.md R166) -/

@[simp] theorem StateAt.clearFault_mod (s : StateAt P) : (s.clearFault).mod = s.mod := rfl
@[simp] theorem StateAt.clearFault_len (s : StateAt P) : (s.clearFault).len = s.len := rfl
@[simp] theorem StateAt.clearFault_root (s : StateAt P) : (s.clearFault).root = s.root := rfl
@[simp] theorem StateAt.clearFault_opa (s : StateAt P) : (s.clearFault).opa = s.opa := rfl
@[simp] theorem StateAt.clearFault_opb (s : StateAt P) : (s.clearFault).opb = s.opb := rfl
@[simp] theorem StateAt.clearFault_opc (s : StateAt P) : (s.clearFault).opc = s.opc := rfl
@[simp] theorem StateAt.clearFault_res (s : StateAt P) : (s.clearFault).res = s.res := rfl
@[simp] theorem StateAt.clearFault_fault (s : StateAt P) : (s.clearFault).fault = false := rfl
@[simp] theorem StateAt.clearFault_err (s : StateAt P) : (s.clearFault).err = 0 := rfl
@[simp] theorem StateAt.clearFault_ecmd (s : StateAt P) : (s.clearFault).ecmd = s.ecmd := rfl
@[simp] theorem StateAt.clearFault_buf (s : StateAt P) : (s.clearFault).buf = s.buf := rfl
@[simp] theorem StateAt.clearFault_pending (s : StateAt P) : (s.clearFault).pending = s.pending := rfl
@[simp] theorem StateAt.clearFault_responses (s : StateAt P) : (s.clearFault).responses = s.responses := rfl
@[simp] theorem StateAt.clearFault_resets (s : StateAt P) : (s.clearFault).resets = s.resets := rfl

/-! ### One buffer word written -/

@[simp] theorem StateAt.setWord_mod (s : StateAt P) (a : Nat) (w : Word P) : (s.setWord a w).mod = s.mod := rfl
@[simp] theorem StateAt.setWord_len (s : StateAt P) (a : Nat) (w : Word P) : (s.setWord a w).len = s.len := rfl
@[simp] theorem StateAt.setWord_root (s : StateAt P) (a : Nat) (w : Word P) : (s.setWord a w).root = s.root := rfl
@[simp] theorem StateAt.setWord_opa (s : StateAt P) (a : Nat) (w : Word P) : (s.setWord a w).opa = s.opa := rfl
@[simp] theorem StateAt.setWord_opb (s : StateAt P) (a : Nat) (w : Word P) : (s.setWord a w).opb = s.opb := rfl
@[simp] theorem StateAt.setWord_opc (s : StateAt P) (a : Nat) (w : Word P) : (s.setWord a w).opc = s.opc := rfl
@[simp] theorem StateAt.setWord_res (s : StateAt P) (a : Nat) (w : Word P) : (s.setWord a w).res = s.res := rfl
@[simp] theorem StateAt.setWord_fault (s : StateAt P) (a : Nat) (w : Word P) : (s.setWord a w).fault = s.fault := rfl
@[simp] theorem StateAt.setWord_err (s : StateAt P) (a : Nat) (w : Word P) : (s.setWord a w).err = s.err := rfl
@[simp] theorem StateAt.setWord_ecmd (s : StateAt P) (a : Nat) (w : Word P) : (s.setWord a w).ecmd = s.ecmd := rfl
@[simp] theorem StateAt.setWord_buf (s : StateAt P) (a : Nat) (w : Word P) : (s.setWord a w).buf = s.buf.write a w := rfl
@[simp] theorem StateAt.setWord_pending (s : StateAt P) (a : Nat) (w : Word P) : (s.setWord a w).pending = s.pending := rfl
@[simp] theorem StateAt.setWord_responses (s : StateAt P) (a : Nat) (w : Word P) : (s.setWord a w).responses = s.responses := rfl
@[simp] theorem StateAt.setWord_resets (s : StateAt P) (a : Nat) (w : Word P) : (s.setWord a w).resets = s.resets := rfl

/-! ### A destination committed -/

@[simp] theorem StateAt.writeSeq_mod (s : StateAt P) (k : BufId) (v : List Int) : (s.writeSeq k v).mod = s.mod := rfl
@[simp] theorem StateAt.writeSeq_len (s : StateAt P) (k : BufId) (v : List Int) : (s.writeSeq k v).len = s.len := rfl
@[simp] theorem StateAt.writeSeq_root (s : StateAt P) (k : BufId) (v : List Int) : (s.writeSeq k v).root = s.root := rfl
@[simp] theorem StateAt.writeSeq_opa (s : StateAt P) (k : BufId) (v : List Int) : (s.writeSeq k v).opa = s.opa := rfl
@[simp] theorem StateAt.writeSeq_opb (s : StateAt P) (k : BufId) (v : List Int) : (s.writeSeq k v).opb = s.opb := rfl
@[simp] theorem StateAt.writeSeq_opc (s : StateAt P) (k : BufId) (v : List Int) : (s.writeSeq k v).opc = s.opc := rfl
@[simp] theorem StateAt.writeSeq_res (s : StateAt P) (k : BufId) (v : List Int) : (s.writeSeq k v).res = s.res := rfl
@[simp] theorem StateAt.writeSeq_fault (s : StateAt P) (k : BufId) (v : List Int) : (s.writeSeq k v).fault = s.fault := rfl
@[simp] theorem StateAt.writeSeq_err (s : StateAt P) (k : BufId) (v : List Int) : (s.writeSeq k v).err = s.err := rfl
@[simp] theorem StateAt.writeSeq_ecmd (s : StateAt P) (k : BufId) (v : List Int) : (s.writeSeq k v).ecmd = s.ecmd := rfl
@[simp] theorem StateAt.writeSeq_buf (s : StateAt P) (k : BufId) (v : List Int) : (s.writeSeq k v).buf = s.buf.writeFrom (bufAddr P k 0) (v.map bitsW) := rfl
@[simp] theorem StateAt.writeSeq_pending (s : StateAt P) (k : BufId) (v : List Int) : (s.writeSeq k v).pending = s.pending := rfl
@[simp] theorem StateAt.writeSeq_responses (s : StateAt P) (k : BufId) (v : List Int) : (s.writeSeq k v).responses = s.responses := rfl
@[simp] theorem StateAt.writeSeq_resets (s : StateAt P) (k : BufId) (v : List Int) : (s.writeSeq k v).resets = s.resets := rfl

/-! ### `RES` committed -/

@[simp] theorem StateAt.setRes_mod (s : StateAt P) (v : Int) : (s.setRes v).mod = s.mod := rfl
@[simp] theorem StateAt.setRes_len (s : StateAt P) (v : Int) : (s.setRes v).len = s.len := rfl
@[simp] theorem StateAt.setRes_root (s : StateAt P) (v : Int) : (s.setRes v).root = s.root := rfl
@[simp] theorem StateAt.setRes_opa (s : StateAt P) (v : Int) : (s.setRes v).opa = s.opa := rfl
@[simp] theorem StateAt.setRes_opb (s : StateAt P) (v : Int) : (s.setRes v).opb = s.opb := rfl
@[simp] theorem StateAt.setRes_opc (s : StateAt P) (v : Int) : (s.setRes v).opc = s.opc := rfl
@[simp] theorem StateAt.setRes_res (s : StateAt P) (v : Int) : (s.setRes v).res = bitsW v := rfl
@[simp] theorem StateAt.setRes_fault (s : StateAt P) (v : Int) : (s.setRes v).fault = s.fault := rfl
@[simp] theorem StateAt.setRes_err (s : StateAt P) (v : Int) : (s.setRes v).err = s.err := rfl
@[simp] theorem StateAt.setRes_ecmd (s : StateAt P) (v : Int) : (s.setRes v).ecmd = s.ecmd := rfl
@[simp] theorem StateAt.setRes_buf (s : StateAt P) (v : Int) : (s.setRes v).buf = s.buf := rfl
@[simp] theorem StateAt.setRes_pending (s : StateAt P) (v : Int) : (s.setRes v).pending = s.pending := rfl
@[simp] theorem StateAt.setRes_responses (s : StateAt P) (v : Int) : (s.setRes v).responses = s.responses := rfl
@[simp] theorem StateAt.setRes_resets (s : StateAt P) (v : Int) : (s.setRes v).resets = s.resets := rfl

/-! ### `ROOT` committed -/

@[simp] theorem StateAt.setRoot_mod (s : StateAt P) (v : Int) : (s.setRoot v).mod = s.mod := rfl
@[simp] theorem StateAt.setRoot_len (s : StateAt P) (v : Int) : (s.setRoot v).len = s.len := rfl
@[simp] theorem StateAt.setRoot_root (s : StateAt P) (v : Int) : (s.setRoot v).root = bitsW v := rfl
@[simp] theorem StateAt.setRoot_opa (s : StateAt P) (v : Int) : (s.setRoot v).opa = s.opa := rfl
@[simp] theorem StateAt.setRoot_opb (s : StateAt P) (v : Int) : (s.setRoot v).opb = s.opb := rfl
@[simp] theorem StateAt.setRoot_opc (s : StateAt P) (v : Int) : (s.setRoot v).opc = s.opc := rfl
@[simp] theorem StateAt.setRoot_res (s : StateAt P) (v : Int) : (s.setRoot v).res = s.res := rfl
@[simp] theorem StateAt.setRoot_fault (s : StateAt P) (v : Int) : (s.setRoot v).fault = s.fault := rfl
@[simp] theorem StateAt.setRoot_err (s : StateAt P) (v : Int) : (s.setRoot v).err = s.err := rfl
@[simp] theorem StateAt.setRoot_ecmd (s : StateAt P) (v : Int) : (s.setRoot v).ecmd = s.ecmd := rfl
@[simp] theorem StateAt.setRoot_buf (s : StateAt P) (v : Int) : (s.setRoot v).buf = s.buf := rfl
@[simp] theorem StateAt.setRoot_pending (s : StateAt P) (v : Int) : (s.setRoot v).pending = s.pending := rfl
@[simp] theorem StateAt.setRoot_responses (s : StateAt P) (v : Int) : (s.setRoot v).responses = s.responses := rfl
@[simp] theorem StateAt.setRoot_resets (s : StateAt P) (v : Int) : (s.setRoot v).resets = s.resets := rfl

/-! ### An answer given -/

@[simp] theorem StateAt.respond_mod (s : StateAt P) (r : Response P) : (s.respond r).mod = s.mod := rfl
@[simp] theorem StateAt.respond_len (s : StateAt P) (r : Response P) : (s.respond r).len = s.len := rfl
@[simp] theorem StateAt.respond_root (s : StateAt P) (r : Response P) : (s.respond r).root = s.root := rfl
@[simp] theorem StateAt.respond_opa (s : StateAt P) (r : Response P) : (s.respond r).opa = s.opa := rfl
@[simp] theorem StateAt.respond_opb (s : StateAt P) (r : Response P) : (s.respond r).opb = s.opb := rfl
@[simp] theorem StateAt.respond_opc (s : StateAt P) (r : Response P) : (s.respond r).opc = s.opc := rfl
@[simp] theorem StateAt.respond_res (s : StateAt P) (r : Response P) : (s.respond r).res = s.res := rfl
@[simp] theorem StateAt.respond_fault (s : StateAt P) (r : Response P) : (s.respond r).fault = s.fault := rfl
@[simp] theorem StateAt.respond_err (s : StateAt P) (r : Response P) : (s.respond r).err = s.err := rfl
@[simp] theorem StateAt.respond_ecmd (s : StateAt P) (r : Response P) : (s.respond r).ecmd = s.ecmd := rfl
@[simp] theorem StateAt.respond_buf (s : StateAt P) (r : Response P) : (s.respond r).buf = s.buf := rfl
@[simp] theorem StateAt.respond_pending (s : StateAt P) (r : Response P) : (s.respond r).pending = s.pending := rfl
@[simp] theorem StateAt.respond_responses (s : StateAt P) (r : Response P) : (s.respond r).responses = s.responses ++ [r] := rfl
@[simp] theorem StateAt.respond_resets (s : StateAt P) (r : Response P) : (s.respond r).resets = s.resets := rfl

/-! ### The reset event (70_reset_and_hazards.md R190) -/

@[simp] theorem StateAt.applyReset_mod (s : StateAt P) : (s.applyReset).mod = 0 := rfl
@[simp] theorem StateAt.applyReset_len (s : StateAt P) : (s.applyReset).len = 0 := rfl
@[simp] theorem StateAt.applyReset_root (s : StateAt P) : (s.applyReset).root = 0 := rfl
@[simp] theorem StateAt.applyReset_opa (s : StateAt P) : (s.applyReset).opa = 0 := rfl
@[simp] theorem StateAt.applyReset_opb (s : StateAt P) : (s.applyReset).opb = 0 := rfl
@[simp] theorem StateAt.applyReset_opc (s : StateAt P) : (s.applyReset).opc = 0 := rfl
@[simp] theorem StateAt.applyReset_res (s : StateAt P) : (s.applyReset).res = 0 := rfl
@[simp] theorem StateAt.applyReset_fault (s : StateAt P) : (s.applyReset).fault = false := rfl
@[simp] theorem StateAt.applyReset_err (s : StateAt P) : (s.applyReset).err = 0 := rfl
@[simp] theorem StateAt.applyReset_ecmd (s : StateAt P) : (s.applyReset).ecmd = 0 := rfl
@[simp] theorem StateAt.applyReset_buf (s : StateAt P) : (s.applyReset).buf = [] := rfl
@[simp] theorem StateAt.applyReset_pending (s : StateAt P) : (s.applyReset).pending = s.pending := rfl
@[simp] theorem StateAt.applyReset_responses (s : StateAt P) : (s.applyReset).responses = s.responses := rfl
@[simp] theorem StateAt.applyReset_resets (s : StateAt P) : (s.applyReset).resets = s.resets + 1 := rfl

/-! ### A command word placed -/

/-- The parameters stay. -/
@[simp] theorem State.withFetchWord_params (s : State) (n w : Nat) : (s.withFetchWord n w).params = s.params := rfl
/-- Only the pending events change: the write of the word to `CMD` stands first. -/
@[simp] theorem State.withFetchWord_contents (s : State) (n w : Nat) :
    (s.withFetchWord n w).contents =
      { s.contents with
        pending := .wr (cmdAddr s.params) (tableWord s.params n w) :: s.contents.pending } := rfl

/-! ### One scalar register written -/

@[simp] theorem StateAt.setScalar_fault (s : StateAt P) (r : ScalarReg) (w : Word P) : (s.setScalar r w).fault = s.fault := by
  cases r <;> rfl
@[simp] theorem StateAt.setScalar_err (s : StateAt P) (r : ScalarReg) (w : Word P) : (s.setScalar r w).err = s.err := by
  cases r <;> rfl
@[simp] theorem StateAt.setScalar_ecmd (s : StateAt P) (r : ScalarReg) (w : Word P) : (s.setScalar r w).ecmd = s.ecmd := by
  cases r <;> rfl
@[simp] theorem StateAt.setScalar_buf (s : StateAt P) (r : ScalarReg) (w : Word P) : (s.setScalar r w).buf = s.buf := by
  cases r <;> rfl
@[simp] theorem StateAt.setScalar_pending (s : StateAt P) (r : ScalarReg) (w : Word P) : (s.setScalar r w).pending = s.pending := by
  cases r <;> rfl
@[simp] theorem StateAt.setScalar_responses (s : StateAt P) (r : ScalarReg) (w : Word P) : (s.setScalar r w).responses = s.responses := by
  cases r <;> rfl
@[simp] theorem StateAt.setScalar_resets (s : StateAt P) (r : ScalarReg) (w : Word P) : (s.setScalar r w).resets = s.resets := by
  cases r <;> rfl
@[simp] theorem StateAt.setScalar_scalar (s : StateAt P) (r q : ScalarReg) (w : Word P) :
    (s.setScalar r w).scalar q = if q = r then w else s.scalar q := by
  cases r <;> cases q <;> rfl

/-! ### The words of the buffers depend on `buf` and `resets` alone -/

theorem StateAt.wordAt_congr {s t : StateAt P} (hb : s.buf = t.buf) (hr : s.resets = t.resets) (a : Nat) :
    s.wordAt a = t.wordAt a := by
  simp [StateAt.wordAt, hb, hr]

@[simp] theorem StateAt.raise_wordAt (s : StateAt P) (e : CmdError) (cw : CmdWord) (a : Nat) :
    (s.raise e cw).wordAt a = s.wordAt a := rfl
@[simp] theorem StateAt.clearFault_wordAt (s : StateAt P) (a : Nat) : s.clearFault.wordAt a = s.wordAt a := rfl
@[simp] theorem StateAt.setRes_wordAt (s : StateAt P) (v : Int) (a : Nat) : (s.setRes v).wordAt a = s.wordAt a := rfl
@[simp] theorem StateAt.setRoot_wordAt (s : StateAt P) (v : Int) (a : Nat) : (s.setRoot v).wordAt a = s.wordAt a := rfl
@[simp] theorem StateAt.respond_wordAt (s : StateAt P) (r : Response P) (a : Nat) :
    (s.respond r).wordAt a = s.wordAt a := rfl
@[simp] theorem StateAt.setScalar_wordAt (s : StateAt P) (r : ScalarReg) (w : Word P) (a : Nat) :
    (s.setScalar r w).wordAt a = s.wordAt a := by
  cases r <;> rfl

end Sys2Proof.Machine
end

