-- ==== Sys2Proof/Laws/Memory.lean ====
section
/-!
SUPPORT. The laws of the buffers' list: read after write, a write leaves every other word alone, and every
write keeps the canonical form.
-/

namespace Sys2Proof.Machine

variable {P : Params}

@[simp] theorem Memory.find_write_self (m : Memory P) (a : Nat) (w : Word P) : (m.write a w).find a = some w := by
  induction m with
  | nil => simp [Memory.write, Memory.find]
  | cons c m ih =>
    obtain ⟨b, v⟩ := c
    simp only [Memory.write]
    split
    · next h => simp [Memory.find, show b ≠ a by omega, ih]
    · split <;> simp [Memory.find]

theorem Memory.find_write_ne (m : Memory P) {a b : Nat} (w : Word P) (h : b ≠ a) :
    (m.write a w).find b = m.find b := by
  induction m with
  | nil => simp [Memory.write, Memory.find, h.symm]
  | cons c m ih =>
    obtain ⟨d, v⟩ := c
    simp only [Memory.write]
    split
    · simp [Memory.find, ih]
    · split
      · next hd => subst hd; simp [Memory.find, h.symm]
      · simp [Memory.find, h.symm]

/-- A later lower bound is a stronger one. -/
theorem Memory.risingFrom_mono {lo lo' : Nat} {m : Memory P} (h : lo' ≤ lo) (hm : m.risingFrom lo = true) :
    m.risingFrom lo' = true := by
  cases m with
  | nil => rfl
  | cons c m =>
    obtain ⟨a, w⟩ := c
    simp only [Memory.risingFrom, Bool.and_eq_true, decide_eq_true_eq] at hm ⊢
    exact ⟨h.trans hm.1, hm.2⟩

theorem Memory.risingFrom_write {lo a : Nat} {m : Memory P} (w : Word P) (ha : lo ≤ a)
    (hm : m.risingFrom lo = true) : (m.write a w).risingFrom lo = true := by
  induction m generalizing lo with
  | nil => simp [Memory.write, Memory.risingFrom, ha]
  | cons c m ih =>
    obtain ⟨b, v⟩ := c
    simp only [Memory.risingFrom, Bool.and_eq_true, decide_eq_true_eq] at hm
    simp only [Memory.write]
    split
    · next hb =>
      simp only [Memory.risingFrom, Bool.and_eq_true, decide_eq_true_eq]
      exact ⟨hm.1, ih (by omega) hm.2⟩
    · split
      · next hb => subst hb; simp [Memory.risingFrom, ha, hm.2]
      · next h1 h2 =>
        simp only [Memory.risingFrom, Bool.and_eq_true, decide_eq_true_eq]
        exact ⟨ha, by omega, hm.2⟩

theorem Memory.all_write {a : Nat} {m : Memory P} {p : Nat × Word P → Bool} {w : Word P} (ha : p (a, w) = true)
    (hm : m.all p = true) : (m.write a w).all p = true := by
  induction m with
  | nil => simp [Memory.write, ha]
  | cons c m ih =>
    obtain ⟨b, v⟩ := c
    simp only [List.all_cons, Bool.and_eq_true] at hm
    simp only [Memory.write]
    split
    · simp [hm.1, ih hm.2]
    · split <;> simp [ha, hm.1, hm.2]

/-- A write inside the buffer page keeps the canonical form. -/
theorem Memory.wf_write {m : Memory P} {a : Nat} (w : Word P) (hm : m.wf = true) (hlo : P.bufBase ≤ a)
    (hhi : a < P.addrEnd) : (m.write a w).wf = true := by
  simp only [Memory.wf, Bool.and_eq_true] at hm ⊢
  exact ⟨risingFrom_write w hlo hm.1, all_write (by simpa using hhi) hm.2⟩

/-- Consecutive writes inside the buffer page keep the canonical form. -/
theorem Memory.wf_writeFrom {m : Memory P} {a : Nat} {ws : List (Word P)} (hm : m.wf = true) (hlo : P.bufBase ≤ a)
    (hhi : a + ws.length ≤ P.addrEnd) : (m.writeFrom a ws).wf = true := by
  induction ws generalizing m a with
  | nil => exact hm
  | cons w ws ih =>
    simp only [List.length_cons] at hhi
    exact ih (wf_write w hm hlo (by omega)) (by omega) (by omega)

theorem Memory.find_writeFrom_outside {m : Memory P} {a b : Nat} {ws : List (Word P)}
    (h : b < a ∨ a + ws.length ≤ b) : (m.writeFrom a ws).find b = m.find b := by
  induction ws generalizing m a with
  | nil => rfl
  | cons w ws ih =>
    simp only [List.length_cons] at h
    simp only [Memory.writeFrom]
    rw [ih (by omega), Memory.find_write_ne _ _ (by omega)]

theorem Memory.find_writeFrom_inside {m : Memory P} {a i : Nat} {ws : List (Word P)} (h : i < ws.length) :
    (m.writeFrom a ws).find (a + i) = some ws[i] := by
  induction ws generalizing m a i with
  | nil => simp at h
  | cons w ws ih =>
    simp only [Memory.writeFrom]
    cases i with
    | zero => rw [find_writeFrom_outside (by omega)]; simp
    | succ i =>
      rw [show a + (i + 1) = a + 1 + i by omega, ih (by simpa using h)]
      simp

/-- What one buffer word written changes: it reads back, and every other word is as before. -/
theorem StateAt.setWord_wordAt (s : StateAt P) (a b : Nat) (w : Word P) :
    (s.setWord a w).wordAt b = if b = a then w else s.wordAt b := by
  unfold StateAt.wordAt
  split
  · next h => subst h; simp
  · next h => simp [Memory.find_write_ne _ _ h]

theorem StateAt.writeSeq_wordAt_outside (s : StateAt P) {k : BufId} {v : List Int} {a : Nat}
    (h : a < bufAddr P k 0 ∨ bufAddr P k 0 + v.length ≤ a) : (s.writeSeq k v).wordAt a = s.wordAt a := by
  simp [StateAt.wordAt, Memory.find_writeFrom_outside (ws := v.map bitsW) (by simpa using h)]

theorem StateAt.writeSeq_wordAt_inside (s : StateAt P) {k : BufId} {v : List Int} {i : Nat} (h : i < v.length) :
    (s.writeSeq k v).wordAt (bufAddr P k 0 + i) = bitsW v[i] := by
  simp [StateAt.wordAt, Memory.find_writeFrom_inside (ws := v.map bitsW) (by simpa using h)]

/-- What the commit of a destination changes (10_state.md R24): the words at its indices take the values, every
other word is as before. -/
theorem StateAt.writeSeq_spec (s : StateAt P) (k : BufId) (v : List Int) :
    (∀ (i : Nat) (h : i < v.length), (s.writeSeq k v).bufWord k i = bitsW v[i]) ∧
      ∀ a, (∀ i, i < v.length → a ≠ bufAddr P k i) → (s.writeSeq k v).wordAt a = s.wordAt a := by
  refine ⟨fun i h => s.writeSeq_wordAt_inside h, fun a h => s.writeSeq_wordAt_outside ?_⟩
  by_contra hc
  exact h (a - bufAddr P k 0) (by omega) (by simp only [bufAddr] at hc ⊢; omega)

end Sys2Proof.Machine
end

