-- ==== Sys2Proof/Laws/Operands.lean ====
section
/-!
SUPPORT. The laws of operand reading: words and integers, the address decode as a function of the address
as a number, and the snapshot of a source.
-/

namespace Sys2Proof.Machine

variable {P : Params}

/-- Every result the block writes has one representation, with the top bit 0 (40_modular_arithmetic.md R88). -/
theorem sint_bitsW {v : Int} (h0 : 0 ≤ v) (h1 : v < 2 ^ (P.W - 1)) : sint (bitsW v : Word P) = v := by
  have hw := P.wordWide
  have h2 : (2 : Int) ^ P.W = 2 * 2 ^ (P.W - 1) := by
    rw [← pow_succ', Nat.sub_add_cancel (by omega)]
  simp only [sint, bitsW, BitVec.toInt_ofInt]
  refine Int.bmod_eq_of_le ?_ ?_ <;> push_cast <;> rw [h2] <;> omega

theorem sint_lt (b : Word P) : sint b < 2 ^ (P.W - 1) := by
  have hw := P.wordWide
  have h2 : (2 : Int) ^ P.W = 2 * 2 ^ (P.W - 1) := by
    rw [← pow_succ', Nat.sub_add_cancel (by omega)]
  have := BitVec.two_mul_toInt_lt (x := b)
  simp only [sint]
  omega

theorem bitsW_msb {v : Int} (h0 : 0 ≤ v) (h1 : v < 2 ^ (P.W - 1)) : (bitsW v : Word P).msb = false := by
  have h := sint_bitsW h0 h1
  rw [BitVec.msb_eq_toInt]
  simp only [sint] at h
  simp [h, h0]

/-! ### The parameters as numbers -/

theorem NMAX_pos : 0 < P.NMAX := Nat.two_pow_pos _
theorem bufBase_eq : P.bufBase = 4 * P.NMAX := by
  change 2 ^ (P.LOGNMAX + 2) = _
  rw [pow_add, mul_comm]
  rfl
theorem addrEnd_eq : P.addrEnd = 8 * P.NMAX := by
  change 2 ^ (P.LOGNMAX + 3) = _
  rw [pow_add, mul_comm]
  rfl
theorem hostAddr_lt (a : HostAddr P) : a.toNat < 8 * P.NMAX := by
  rw [← addrEnd_eq]
  exact a.isLt
theorem bufId_lt (k : BufId) : k.val < 4 := k.isLt

/-- The register page holds the register numbers 0x0 to 0x7 for every `LOGNMAX` (assumption 13). -/
theorem bufBase_ge : 8 ≤ P.bufBase := by
  have := Nat.pow_le_pow_right (n := 2) (by decide) P.capacity
  rw [bufBase_eq]
  change 8 ≤ 4 * 2 ^ P.LOGNMAX
  omega

/-- For `LOGNMAX` of at least 2 it holds all sixteen (assumption 13). -/
theorem registers_below (h : 2 ≤ P.LOGNMAX) : 16 ≤ P.bufBase := by
  have := Nat.pow_le_pow_right (n := 2) (by decide) h
  rw [bufBase_eq]
  change 16 ≤ 4 * 2 ^ P.LOGNMAX
  omega

/-- A buffer address is a base and an index below `NMAX` (20_memory.md R43). -/
theorem bufAddr_eq (k : BufId) (i : Nat) : bufAddr P k i = (4 + k.val) * P.NMAX + i := by
  rw [bufAddr, bufBase_eq, add_mul]

/-- A buffer word lies in the address space. -/
theorem bufAddr_bounds (k : BufId) {i : Nat} (h : i < P.NMAX) :
    P.bufBase ≤ bufAddr P k i ∧ bufAddr P k i < P.addrEnd := by
  have hk := bufId_lt k
  have : k.val * P.NMAX ≤ 3 * P.NMAX := Nat.mul_le_mul_right _ (by omega)
  rw [bufAddr, addrEnd_eq, bufBase_eq]
  omega

theorem bufAddr_div (k : BufId) {i : Nat} (h : i < P.NMAX) : bufAddr P k i / P.NMAX = 4 + k.val := by
  rw [bufAddr_eq, Nat.add_comm, Nat.add_mul_div_right _ _ NMAX_pos, Nat.div_eq_of_lt h, Nat.zero_add]

theorem bufAddr_mod (k : BufId) {i : Nat} (h : i < P.NMAX) : bufAddr P k i % P.NMAX = i := by
  rw [bufAddr_eq, Nat.add_comm, Nat.add_mul_mod_self_right, Nat.mod_eq_of_lt h]

/-- One address names one word of one buffer. -/
theorem bufAddr_inj {k k' : BufId} {i i' : Nat} (h : i < P.NMAX) (h' : i' < P.NMAX) :
    bufAddr P k i = bufAddr P k' i' ↔ k = k' ∧ i = i' := by
  constructor
  · intro e
    have hd := bufAddr_div k h
    rw [e, bufAddr_div k' h'] at hd
    have hm := bufAddr_mod k h
    rw [e, bufAddr_mod k' h'] at hm
    exact ⟨Fin.ext (by omega), hm.symm⟩
  · rintro ⟨rfl, rfl⟩
    rfl

theorem hostAddr_page (a : HostAddr P) : a.getLsbD (P.AW - 1) = decide (P.bufBase ≤ a.toNat) := by
  have ha := hostAddr_lt a
  change a.toNat.testBit (P.AW - 1) = _
  rw [Nat.testBit_eq_decide_div_mod_eq]
  have h2 : a.toNat / 2 ^ (P.AW - 1) < 2 := by
    rw [Nat.div_lt_iff_lt_mul (Nat.two_pow_pos _), show 2 ^ (P.AW - 1) = 4 * P.NMAX from bufBase_eq]
    omega
  rw [Nat.mod_eq_of_lt h2, decide_eq_decide]
  rw [show P.bufBase = 2 ^ (P.AW - 1) from rfl]
  have h1 := Nat.one_le_div_iff (a := a.toNat) (Nat.two_pow_pos (P.AW - 1))
  omega

theorem hostAddr_slice (a : HostAddr P) (lo n : Nat) :
    (a.extractLsb' lo n).toNat = a.toNat / 2 ^ lo % 2 ^ n := by
  rw [BitVec.extractLsb'_toNat, Nat.shiftRight_eq_div_pow]

/-- The upper slice of a register-page address is 0 exactly for the first sixteen (20_memory.md R42). -/
theorem hostAddr_upper {a : HostAddr P} (h : a.toNat < P.bufBase) :
    a.extractLsb' 4 (P.AW - 5) = 0 ↔ a.toNat < 16 := by
  rw [← BitVec.toNat_inj, hostAddr_slice]
  have hl := P.capacity
  rw [bufBase_eq] at h
  by_cases h2 : 2 ≤ P.LOGNMAX
  · have hn : P.NMAX = 4 * 2 ^ (P.AW - 5) := by
      change 2 ^ P.LOGNMAX = 4 * 2 ^ (P.LOGNMAX - 2)
      rw [show (4 : Nat) = 2 ^ 2 from rfl, ← pow_add, show 2 + (P.LOGNMAX - 2) = P.LOGNMAX by omega]
    rw [Nat.mod_eq_of_lt (by omega)]
    simp
  · have h1 : P.LOGNMAX = 1 := by omega
    have hn : P.NMAX = 2 := by simp [Params.NMAX, h1]
    simp [Params.AW, h1]
    omega

/-- The page decode of 20_memory.md R42 on the address as a number. -/
theorem pageTarget_eq (a : HostAddr P) :
    pageTarget a =
      if P.bufBase ≤ a.toNat then
        .buf ⟨a.toNat / P.NMAX - 4, by
          have := (Nat.div_lt_iff_lt_mul (NMAX_pos (P := P))).2 (hostAddr_lt a)
          change _ < 4
          omega⟩ (a.toNat % P.NMAX)
      else if a.toNat < 16 then registerPage a.toNat else .unmapped := by
  unfold pageTarget
  rw [hostAddr_page a]
  by_cases h : P.bufBase ≤ a.toNat
  · have hlo : 4 ≤ a.toNat / P.NMAX := (Nat.le_div_iff_mul_le NMAX_pos).2 (bufBase_eq (P := P) ▸ h)
    have hhi : a.toNat / P.NMAX < 8 := (Nat.div_lt_iff_lt_mul NMAX_pos).2 (hostAddr_lt a)
    simp only [h, decide_true, if_true]
    congr 1
    · apply Fin.ext
      change (a.extractLsb' P.LOGNMAX 2).toNat = _
      rw [hostAddr_slice]
      change a.toNat / P.NMAX % 4 = a.toNat / P.NMAX - 4
      omega
  · have hn : (a.extractLsb' 0 4).toNat = a.toNat % 16 := by
      rw [hostAddr_slice, pow_zero, Nat.div_one]
      rfl
    have hu := hostAddr_upper (by omega : a.toNat < P.bufBase)
    simp only [h, decide_false, Bool.false_eq_true, if_false, hu, hn]
    by_cases h16 : a.toNat < 16
    · rw [if_pos h16, if_pos h16, Nat.mod_eq_of_lt h16]
    · rw [if_neg h16, if_neg h16]

theorem registerPage_ne_buf (n : Nat) (k : BufId) (i : Nat) : registerPage n ≠ .buf k i := by
  unfold registerPage
  split <;> simp

/-- The buffer words a decoded address names are words of a buffer; the three control registers' addresses name
none (20_memory.md R44, R45). -/
theorem target_buf_lt {a : HostAddr P} {k : BufId} {i : Nat} (h : target a = .buf k i) :
    i < P.NMAX ∧ bufAddr P k i = a.toNat ∧ 0xA < a.toNat := by
  unfold target at h
  split at h
  · exact absurd h (registerPage_ne_buf _ _ _)
  · next hc =>
    rw [pageTarget_eq] at h
    split at h
    · next hp =>
      have hb := bufBase_ge (P := P)
      injection h with h1 h2
      subst h1 h2
      refine ⟨Nat.mod_lt _ NMAX_pos, ?_, by omega⟩
      have hlo : 4 ≤ a.toNat / P.NMAX := (Nat.le_div_iff_mul_le NMAX_pos).2 (bufBase_eq (P := P) ▸ hp)
      rw [bufAddr_eq]
      simp only [Nat.add_sub_cancel' hlo]
      exact Nat.div_add_mod' _ _
    · split at h
      · exact absurd h (registerPage_ne_buf _ _ _)
      · simp at h

/-- The buffer page past the control registers has no unmapped address (20_memory.md R43, assumption 13). -/
theorem target_of_page {a : HostAddr P} (h : P.bufBase ≤ a.toNat) (hc : 0xA < a.toNat) :
    ∃ (k : BufId) (i : Nat), target a = .buf k i ∧ i < P.NMAX ∧ bufAddr P k i = a.toNat := by
  have ht : target a = pageTarget a := if_neg (by omega)
  rw [pageTarget_eq, if_pos h] at ht
  obtain ⟨hi, ha, _⟩ := target_buf_lt ht
  exact ⟨_, _, ht, hi, ha⟩

/-- Below the buffer page the address as a number is the register number (20_memory.md R42). -/
theorem target_of_lt {a : HostAddr P} (h : a.toNat < P.bufBase) :
    target a = if a.toNat < 16 then registerPage a.toNat else .unmapped := by
  unfold target
  split
  · rw [if_pos (by omega)]
  · rw [pageTarget_eq, if_neg (by omega)]

/-- The registers 0x0 to 0xA have their addresses whatever the parameters (20_memory.md R44, R45). -/
theorem target_of_register {a : HostAddr P} (h : a.toNat ≤ 0xA) : target a = registerPage a.toNat := by
  have hb := bufBase_ge (P := P)
  by_cases hc : 0x8 ≤ a.toNat
  · exact if_pos ⟨hc, h⟩
  · rw [target_of_lt (by omega), if_pos (by omega)]

/-- A register number is its own address. -/
theorem registerAddr_toNat {n : Nat} (h : n < 16) : (BitVec.ofNat P.AW n).toNat = n := by
  have hl := P.capacity
  have hp : 2 ^ 4 ≤ 2 ^ P.AW := Nat.pow_le_pow_right (by decide) (by simp only [Params.AW]; omega)
  rw [BitVec.toNat_ofNat, Nat.mod_eq_of_lt (by omega)]

/-- The same by register number. -/
theorem target_register {n : Nat} (h : n ≤ 0xA) : target (P := P) (BitVec.ofNat P.AW n) = registerPage n := by
  have ht : (BitVec.ofNat P.AW n).toNat = n := registerAddr_toNat (by omega)
  rw [target_of_register (by omega), ht]

theorem target_cmd : target (P := P) 0x8 = .cmd := target_register (n := 8) (by decide)

theorem target_status : target (P := P) 0x9 = .status := target_register (n := 9) (by decide)

/-- A word of a buffer past the control registers is at its address (20_memory.md R43, assumption 13). -/
theorem target_bufAddr (k : BufId) {i : Nat} (h : i < P.NMAX) (hc : 0xA < bufAddr P k i) :
    target (P := P) (BitVec.ofNat P.AW (bufAddr P k i)) = .buf k i := by
  obtain ⟨hlo, hhi⟩ := bufAddr_bounds (P := P) k h
  have hn : (BitVec.ofNat P.AW (bufAddr P k i)).toNat = bufAddr P k i := by
    rw [BitVec.toNat_ofNat, Nat.mod_eq_of_lt hhi]
  obtain ⟨k', i', ht, hi, ha⟩ := target_of_page (a := BitVec.ofNat P.AW (bufAddr P k i))
    (by rw [hn]; exact hlo) (by rw [hn]; exact hc)
  rw [hn, bufAddr_inj hi h] at ha
  rw [ht, ha.1, ha.2]

@[simp] theorem StateAt.readSeq_length (s : StateAt P) (k : BufId) (n : Nat) : (s.readSeq k n).length = n := by
  simp [StateAt.readSeq]

@[simp] theorem StateAt.readSeq_getElem (s : StateAt P) (k : BufId) {n i : Nat}
    (h : i < (s.readSeq k n).length) : (s.readSeq k n)[i] = sint (s.bufWord k i) := by
  simp [StateAt.readSeq]

end Sys2Proof.Machine
end

