-- ==== Sys2Proof/Laws/Checks.lean ====
section
/-!
SUPPORT. What each check of the command rules can answer, and what a command's run can be.
-/

namespace Sys2Proof.Machine

variable {P : Params}

theorem require_eq_ok {b : Bool} {e : CmdError} {u : Unit} : require b e = .ok u ↔ b = true := by
  unfold require
  split <;> simp_all

theorem require_eq_error {b : Bool} {e e' : CmdError} : require b e = .error e' ↔ b = false ∧ e' = e := by
  unfold require
  split <;> simp_all [eq_comm]

theorem orRaise_eq_ok {α : Type} {e : CmdError} {o : Option α} {v : α} : orRaise e o = .ok v ↔ o = some v := by
  cases o <;> simp [orRaise]

theorem orRaise_eq_error {α : Type} {e e' : CmdError} {o : Option α} :
    orRaise e o = .error e' ↔ o = none ∧ e' = e := by
  cases o <;> simp [orRaise, eq_comm]

/-- The modulus check (30_encoding.md R69). -/
theorem StateAt.modulus_eq_ok {s : StateAt P} {p : Int} : s.modulus = .ok p ↔ 0 < sint s.mod ∧ p = sint s.mod := by
  unfold StateAt.modulus
  split
  · simp; omega
  · simp; constructor
    · rintro rfl; exact ⟨by omega, rfl⟩
    · rintro ⟨_, rfl⟩; rfl

theorem StateAt.modulus_eq_error {s : StateAt P} {e : CmdError} :
    s.modulus = .error e ↔ sint s.mod ≤ 0 ∧ e = .invalidModulus := by
  unfold StateAt.modulus
  split <;> simp_all [eq_comm]

/-- The scalar length check (41_root_finder.md R106, R108). -/
theorem StateAt.positiveLen_eq_ok {s : StateAt P} {n : Nat} :
    s.positiveLen = .ok n ↔ 1 ≤ n ∧ sint s.len = n := by
  unfold StateAt.positiveLen
  split
  · simp; omega
  · simp; omega

theorem StateAt.positiveLen_eq_error {s : StateAt P} {e : CmdError} :
    s.positiveLen = .error e ↔ sint s.len < 1 ∧ e = .preconditionViolated := by
  unfold StateAt.positiveLen
  split <;> simp_all [eq_comm]

/-- The length check of the sequence commands (30_encoding.md R70). -/
theorem StateAt.seqLen_eq_ok {s : StateAt P} {n : Nat} :
    s.seqLen = .ok n ↔ 1 ≤ n ∧ n ≤ P.NMAX ∧ sint s.len = n := by
  unfold StateAt.seqLen
  split
  · simp; omega
  · simp; omega

theorem StateAt.seqLen_eq_error {s : StateAt P} {e : CmdError} :
    s.seqLen = .error e ↔ (sint s.len < 1 ∨ sint s.len > P.NMAX) ∧ e = .preconditionViolated := by
  unfold StateAt.seqLen
  split <;> simp_all [eq_comm]

theorem StateAt.checkRoot_eq_ok {s : StateAt P} {n : Nat} {p : Int} {u : Unit} :
    s.checkRoot n p = .ok u ↔ hasOrder (sint s.root) n p = true := require_eq_ok

theorem StateAt.checkRoot_eq_error {s : StateAt P} {n : Nat} {p : Int} {e : CmdError} :
    s.checkRoot n p = .error e ↔ hasOrder (sint s.root) n p = false ∧ e = .preconditionViolated :=
  require_eq_error

/-- Peels one check off a command's body. -/
theorem bind_eq_ok {α β : Type} {x : Except CmdError α} {f : α → Except CmdError β} {v : β} :
    (x >>= f) = .ok v ↔ ∃ a, x = .ok a ∧ f a = .ok v := by
  cases x <;> simp [bind, Except.bind]

theorem bind_eq_error {α β : Type} {x : Except CmdError α} {f : α → Except CmdError β} {e : CmdError} :
    (x >>= f) = .error e ↔ x = .error e ∨ ∃ a, x = .ok a ∧ f a = .error e := by
  cases x <;> simp [bind, Except.bind]

/-- All that the end of a command can be (30_encoding.md R69, 60_exceptions.md R164): its commit, or fault entry
on the state as it was. -/
theorem StateAt.finish_eq {s t : StateAt P} {i : Instr} {r : Except CmdError (StateAt P)} :
    s.finish i r = t ↔ r = .ok t ∨ ∃ e, r = .error e ∧ t = s.raise e (encode i) := by
  cases r <;> simp [StateAt.finish, eq_comm]

/-- The run of a command answers a next state (00_scope.md R13) with the parameters it began with. -/
theorem State.perform_eq_next {s : StateAt P} {t : State} {i : Instr}
    {body : StateAt P → Except CmdError (StateAt P)} :
    State.perform ⟨P, s⟩ i body = .next t ↔ t = ⟨P, s.finish i (body s)⟩ := by
  simp [State.perform, eq_comm]

end Sys2Proof.Machine
end

