-- ==== Sys2Proof/Laws/Functions.lean ====
section
/-!
SUPPORT. Ranges and lengths of what the function rules give: results lie in `[0, m)` (40_modular_arithmetic.md
R88), result sequences have the length of the sources.
-/

namespace Sys2Proof.Machine

/-- A field element modulo `m` (00_scope.md, glossary). -/
abbrev InField (m v : Int) : Prop := 0 ≤ v ∧ v < m

theorem trueMod_inField {m : Int} (h : 0 < m) (v : Int) : InField m (trueMod v m) :=
  ⟨Int.emod_nonneg _ h.ne', Int.emod_lt_of_pos _ h⟩

theorem one_inField {m : Int} (h : 0 < m) : InField m (one m) := trueMod_inField h 1

theorem mulmod_inField {m : Int} (h : 0 < m) (a b : Int) : InField m (mulmod a b m) := trueMod_inField h _

/-- R81: the product of the normalized factors is the product, reduced. -/
theorem mulmod_eq (a b m : Int) : mulmod a b m = a * b % m := by
  simp [mulmod, trueMod, ← Int.mul_emod]

theorem bflyCell_inField {m : Int} (h : 0 < m) (c a t : Int) : InField m (bflyCell c a t m) :=
  trueMod_inField h _

/-- R120: the multiply-accumulate step as one reduced sum. -/
theorem bflyCell_eq (c a t m : Int) : bflyCell c a t m = (c + a * t) % m := by
  simp [bflyCell, trueMod, mulmod_eq]

theorem powerLoop_inField {m : Int} (h : 0 < m) {fuel e : Nat} {r s : Int} (hr : InField m r) :
    InField m (powerLoop m fuel e r s) := by
  induction fuel generalizing e r s with
  | zero => exact hr
  | succ fuel ih =>
    simp only [powerLoop]
    split
    · exact hr
    · apply ih
      split
      · exact mulmod_inField h _ _
      · exact hr

theorem powerMod_inField {m : Int} (h : 0 < m) (b : Int) (e : Nat) : InField m (powerMod b e m) :=
  powerLoop_inField h (one_inField h)

theorem inverse_inField {v m u : Int} (h : 0 < m) (hu : inverse v m = some u) : InField m u := by
  unfold inverse at hu
  split at hu
  split at hu
  · cases hu; exact trueMod_inField h _
  · cases hu

theorem generatorScan_range {p g v : Int} {fuel : Nat} (h : generatorScan p fuel g = some v) :
    g ≤ v ∧ v < g + fuel ∧ isGenerator v p = true := by
  induction fuel generalizing g with
  | zero => simp [generatorScan] at h
  | succ fuel ih =>
    simp only [generatorScan] at h
    split at h
    · next hg => cases h; exact ⟨le_rfl, by push_cast; omega, hg⟩
    · obtain ⟨h1, h2, h3⟩ := ih h
      exact ⟨by omega, by push_cast; omega, h3⟩

/-- R103: a generator found is in `1..P-1` and passes the test. -/
theorem generator_range {p g : Int} (hp : 0 < p) (h : generator p = some g) :
    1 ≤ g ∧ g < p ∧ isGenerator g p = true := by
  obtain ⟨h1, h2, h3⟩ := generatorScan_range h
  exact ⟨h1, by omega, h3⟩

theorem rootOfOrder_inField {n : Nat} {p w : Int} (hp : 0 < p) (h : rootOfOrder n p = some w) :
    InField p w := by
  simp only [rootOfOrder, Option.map_eq_some_iff] at h
  obtain ⟨g, _, rfl⟩ := h
  exact powerMod_inField hp _ _

@[simp] theorem nttSeq_length (x : List Int) (n : Nat) (p w : Int) : (nttSeq x n p w).length = n := by
  simp [nttSeq]

theorem invNttSeq_length {x z : List Int} {n : Nat} {p w : Int} (h : invNttSeq x n p w = some z) :
    z.length = n := by
  unfold invNttSeq at h
  split at h
  · cases h
  · split at h
    · cases h
    · cases h; simp

@[simp] theorem pointwise_length (x y : List Int) (p : Int) :
    (pointwise x y p).length = min x.length y.length := by
  simp [pointwise]

theorem convolution_length {a b c : List Int} {n : Nat} {p w : Int} (h : convolution a b n p w = some c) :
    c.length = n := invNttSeq_length h

@[simp] theorem convRow_length (n : Nat) (p ai : Int) (i j : Nat) (b d : List Int) :
    (convRow n p ai i j b d).length = d.length := by
  induction b generalizing j d with
  | nil => rfl
  | cons bj b ih => simp [convRow, ih]

@[simp] theorem convRows_length (n : Nat) (p : Int) (b : List Int) (i : Nat) (a d : List Int) :
    (convRows n p b i a d).length = d.length := by
  induction a generalizing i d with
  | nil => rfl
  | cons ai a ih => simp [convRows, ih]

@[simp] theorem referenceConv_length (a b : List Int) (n : Nat) (p : Int) :
    (referenceConv a b n p).length = n := by
  simp [referenceConv]

theorem truthBit_range (b : Bool) : InField 2 (truthBit b) := by
  cases b <;> decide

end Sys2Proof.Machine
end

