-- ==== Sys2Proof/Laws/Commands.lean ====
section
/-!
SUPPORT. Once for all commands: what the next state of a command can be.
-/

namespace Sys2Proof.Machine

variable {P : Params}

/-- The three ways a command ends (30_encoding.md R69): a fault on the state as it was, a scalar result that fits a
word with its top bit 0, or a destination committed. -/
inductive Ending (i : Instr) (s : StateAt P) : StateAt P → Prop where
  /-- Fault entry (60_exceptions.md R163). -/
  | raised (e : CmdError) : Ending i s (s.raise e (encode i))
  /-- `RES` committed; `v` is a field element or a truth value (10_state.md R23). -/
  | result (v : Int) (h0 : 0 ≤ v) (h1 : v < 2 ^ (P.W - 1)) (hd : destination i = none)
      (hp : 0 < sint s.mod) : Ending i s (s.setRes v)
  /-- `RES` and `ROOT` committed, by GETROOT (41_root_finder.md R106). -/
  | rootFound (v : Int) (h0 : 0 ≤ v) (h1 : v < sint s.mod) (hi : i = .getRoot) :
      Ending i s ((s.setRes v).setRoot v)
  /-- The destination's words `0 .. LEN-1` committed (10_state.md R24). -/
  | committed (sd : BufId) (v : List Int) (hd : destination i = some sd) (hn : v.length ≤ P.NMAX)
      (hl : sint s.len = v.length) : Ending i s (s.writeSeq sd v)

theorem ending_scalar {i : Instr} {s : StateAt P} {body : Int → Except CmdError (StateAt P)}
    (hd : destination i = none)
    (hb : ∀ p, 0 < p → p = sint s.mod → ∀ t, body p = .ok t →
      ∃ v, 0 ≤ v ∧ v < 2 ^ (P.W - 1) ∧ t = s.setRes v) :
    Ending i s (s.finish i (s.modulus >>= body)) := by
  generalize hu : s.finish i _ = u
  rcases StateAt.finish_eq.1 hu with h | ⟨e, _, rfl⟩
  · obtain ⟨p, hp, h⟩ := bind_eq_ok.1 h
    obtain ⟨h0, rfl⟩ := StateAt.modulus_eq_ok.1 hp
    obtain ⟨v, hv0, hv1, rfl⟩ := hb _ h0 rfl _ h
    exact .result v hv0 hv1 hd h0
  · exact .raised e

theorem inField_fits {s : StateAt P} {v : Int} (h : InField (sint s.mod) v) : v < 2 ^ (P.W - 1) :=
  h.2.trans (sint_lt _)

theorem truthBit_fits (b : Bool) : truthBit b < 2 ^ (P.W - 1) := by
  have h1 := truthBit_range b
  have h2 : (2 : Int) ^ 1 ≤ 2 ^ (P.W - 1) :=
    pow_le_pow_right₀ (by norm_num) (by have := P.wordWide; omega)
  exact h1.2.trans_le h2

theorem ending_sequence {i : Instr} {s : StateAt P} {sd : BufId}
    {body : Int → Nat → Except CmdError (StateAt P)} (hd : destination i = some sd)
    (hb : ∀ p n, 0 < p → ∀ t, body p n = .ok t → ∃ v : List Int, v.length = n ∧ t = s.writeSeq sd v) :
    Ending i s (s.finish i (do let p ← s.modulus; let n ← s.seqLen; body p n)) := by
  generalize hu : s.finish i _ = u
  rcases StateAt.finish_eq.1 hu with h | ⟨e, _, rfl⟩
  · obtain ⟨p, hp, h⟩ := bind_eq_ok.1 h
    obtain ⟨n, hn, h⟩ := bind_eq_ok.1 h
    obtain ⟨h0, rfl⟩ := StateAt.modulus_eq_ok.1 hp
    obtain ⟨_, hn1, hn2⟩ := StateAt.seqLen_eq_ok.1 hn
    obtain ⟨v, rfl, rfl⟩ := hb _ n h0 _ h
    exact .committed sd v hd hn1 hn2
  · exact .raised e

/-- What the next state of any command can be; the parameters stay. -/
theorem exec_ending {i : Instr} {s : StateAt P} {t : State} (h : exec i ⟨P, s⟩ = .next t) :
    ∃ u : StateAt P, t = ⟨P, u⟩ ∧ Ending i s u := by
  cases i with
  | trueMod =>
    refine ⟨_, (Host.Outcome.next.inj h).symm, ending_scalar rfl fun p h0 hp t hb => ?_⟩
    cases hb; subst hp
    exact ⟨_, (trueMod_inField h0 _).1, inField_fits (trueMod_inField h0 _), rfl⟩
  | mulMod =>
    refine ⟨_, (Host.Outcome.next.inj h).symm, ending_scalar rfl fun p h0 hp t hb => ?_⟩
    cases hb; subst hp
    exact ⟨_, (mulmod_inField h0 _ _).1, inField_fits (mulmod_inField h0 _ _), rfl⟩
  | powMod =>
    refine ⟨_, (Host.Outcome.next.inj h).symm, ending_scalar rfl fun p h0 hp t hb => ?_⟩
    obtain ⟨_, _, hb⟩ := bind_eq_ok.1 hb
    cases hb; subst hp
    exact ⟨_, (powerMod_inField h0 _ _).1, inField_fits (powerMod_inField h0 _ _), rfl⟩
  | invMod =>
    refine ⟨_, (Host.Outcome.next.inj h).symm, ending_scalar rfl fun p h0 hp t hb => ?_⟩
    obtain ⟨u, hu, hb⟩ := bind_eq_ok.1 hb
    cases hb; subst hp
    have hu := inverse_inField h0 (orRaise_eq_ok.1 hu)
    exact ⟨_, hu.1, inField_fits hu, rfl⟩
  | bfly =>
    refine ⟨_, (Host.Outcome.next.inj h).symm, ending_scalar rfl fun p h0 hp t hb => ?_⟩
    cases hb; subst hp
    exact ⟨_, (bflyCell_inField h0 _ _ _).1, inField_fits (bflyCell_inField h0 _ _ _), rfl⟩
  | isGen =>
    refine ⟨_, (Host.Outcome.next.inj h).symm, ending_scalar rfl fun p h0 hp t hb => ?_⟩
    obtain ⟨_, _, hb⟩ := bind_eq_ok.1 hb
    cases hb
    exact ⟨_, (truthBit_range _).1, truthBit_fits _, rfl⟩
  | gen =>
    refine ⟨_, (Host.Outcome.next.inj h).symm, ending_scalar rfl fun p h0 hp t hb => ?_⟩
    obtain ⟨_, _, hb⟩ := bind_eq_ok.1 hb
    obtain ⟨g, hg, hb⟩ := bind_eq_ok.1 hb
    cases hb; subst hp
    have hg := generator_range h0 (orRaise_eq_ok.1 hg)
    exact ⟨_, by omega, inField_fits ⟨by omega, hg.2.1⟩, rfl⟩
  | getRoot =>
    refine ⟨_, (Host.Outcome.next.inj h).symm, ?_⟩
    generalize hu : s.finish _ _ = u
    rcases StateAt.finish_eq.1 hu with h | ⟨e, _, rfl⟩
    · obtain ⟨p, hp, h1⟩ := bind_eq_ok.1 h
      obtain ⟨h0, rfl⟩ := StateAt.modulus_eq_ok.1 hp
      obtain ⟨_, _, h2⟩ := bind_eq_ok.1 h1
      obtain ⟨n, _, h3⟩ := bind_eq_ok.1 h2
      obtain ⟨_, _, h4⟩ := bind_eq_ok.1 h3
      obtain ⟨w, hw, h5⟩ := bind_eq_ok.1 h4
      obtain rfl : (s.setRes w).setRoot w = u := Except.ok.inj h5
      have hw := rootOfOrder_inField h0 (orRaise_eq_ok.1 hw)
      exact .rootFound w hw.1 hw.2 rfl
    · exact .raised e
  | chkRoot =>
    refine ⟨_, (Host.Outcome.next.inj h).symm, ending_scalar rfl fun p h0 hp t hb => ?_⟩
    obtain ⟨_, _, hb⟩ := bind_eq_ok.1 hb
    cases hb
    exact ⟨_, (truthBit_range _).1, truthBit_fits _, rfl⟩
  | ntt sd sa =>
    refine ⟨_, (Host.Outcome.next.inj h).symm, ending_sequence (sd := sd) rfl fun p n h0 t hb => ?_⟩
    obtain ⟨_, _, hb⟩ := bind_eq_ok.1 hb
    cases hb
    exact ⟨_, by simp, rfl⟩
  | intt sd sa =>
    refine ⟨_, (Host.Outcome.next.inj h).symm, ending_sequence (sd := sd) rfl fun p n h0 t hb => ?_⟩
    obtain ⟨_, _, hb⟩ := bind_eq_ok.1 hb
    obtain ⟨z, hz, hb⟩ := bind_eq_ok.1 hb
    cases hb
    exact ⟨z, invNttSeq_length (orRaise_eq_ok.1 hz), rfl⟩
  | pwMul sd sa sb =>
    refine ⟨_, (Host.Outcome.next.inj h).symm, ending_sequence (sd := sd) rfl fun p n h0 t hb => ?_⟩
    cases hb
    exact ⟨_, by simp, rfl⟩
  | conv sd sa sb =>
    refine ⟨_, (Host.Outcome.next.inj h).symm, ending_sequence (sd := sd) rfl fun p n h0 t hb => ?_⟩
    obtain ⟨_, _, hb⟩ := bind_eq_ok.1 hb
    obtain ⟨z, hz, hb⟩ := bind_eq_ok.1 hb
    cases hb
    exact ⟨z, convolution_length (orRaise_eq_ok.1 hz), rfl⟩
  | chkConv sd sa sb =>
    refine ⟨_, (Host.Outcome.next.inj h).symm, ending_sequence (sd := sd) rfl fun p n h0 t hb => ?_⟩
    cases hb
    exact ⟨_, by simp, rfl⟩

end Sys2Proof.Machine
end

