-- ==== Sys2Proof/Laws/Decode.lean ====
section
/-!
SUPPORT. What decoding a written word of any width is: the upper bits must be 0, and the 16-bit command word
decides the rest (30_encoding.md R60, R68).
-/

namespace Sys2Proof

theorem cmdWord_toNat {W : Nat} (data : BitVec W) : (cmdWord data).toNat = data.toNat % 65536 := by
  simp [cmdWord]

/-- R65 (a): the upper slice is 0 exactly for a number of 16 bits. -/
theorem upperSlice_eq_zero {W : Nat} (data : BitVec W) :
    data.extractLsb' 16 (W - 16) = 0 ↔ data.toNat < 65536 := by
  rw [← BitVec.toNat_inj, BitVec.extractLsb'_toNat, Nat.shiftRight_eq_div_pow]
  have hlt : data.toNat / 65536 < 2 ^ (W - 16) := by
    rw [Nat.div_lt_iff_lt_mul (by decide)]
    refine data.isLt.trans_le ?_
    rw [show (65536 : Nat) = 2 ^ 16 from rfl, ← pow_add]
    exact Nat.pow_le_pow_right (by decide) (by omega)
  rw [show (2 : Nat) ^ 16 = 65536 from rfl, Nat.mod_eq_of_lt hlt]
  simp

/-- A word decodes to a command exactly if it has no upper bits and its command word does. -/
theorem decode_eq_ok {W : Nat} {data : BitVec W} {i : Instr} :
    decode data = .ok i ↔ data.toNat < 65536 ∧ decodeCmd (cmdWord data) = .ok i := by
  unfold decode
  rw [← upperSlice_eq_zero]
  split <;> simp_all

/-- A number of 16 bits decodes alike at every width. -/
theorem decode_ofNat {W n : Nat} (hw : 16 ≤ W) (hn : n < 65536) :
    decode (BitVec.ofNat W n) = decodeCmd (BitVec.ofNat 16 n) := by
  have hp : (65536 : Nat) ≤ 2 ^ W := Nat.pow_le_pow_right (n := 2) (by decide) hw
  have ht : (BitVec.ofNat W n).toNat = n := by
    rw [BitVec.toNat_ofNat, Nat.mod_eq_of_lt (by omega)]
  have hc : cmdWord (BitVec.ofNat W n) = BitVec.ofNat 16 n := by
    rw [← BitVec.toNat_inj, cmdWord_toNat, ht, BitVec.toNat_ofNat]
  unfold decode
  rw [if_neg (by rw [not_not, upperSlice_eq_zero, ht]; exact hn), hc]

/-- The zero-extended command word decodes alike at every width (R66). -/
theorem decode_setWidth {W : Nat} (hw : 16 ≤ W) (cw : CmdWord) : decode (cw.setWidth W) = decodeCmd cw := by
  have h := decode_ofNat hw cw.isLt
  rwa [BitVec.ofNat_toNat, BitVec.ofNat_toNat, BitVec.setWidth_eq] at h

end Sys2Proof
end

