-- ==== Sys2Proof/Laws/PerInstr.lean ====
section
/-!
SUPPORT. The family EncodesTableRow: the encoder gives every command a word of its own row of
spec/opcode_table.json, whatever its selectors.
-/

namespace Sys2Proof.Laws

/-- The `mask` of a command's row (30_encoding.md R64). -/
def rowMask : Instr → CmdWord
  | .trueMod | .mulMod | .powMod | .invMod | .bfly | .isGen | .gen | .getRoot | .chkRoot => 0xFFFF
  | .ntt _ _ | .intt _ _ => 0xCCFF
  | .pwMul _ _ _ | .conv _ _ _ | .chkConv _ _ _ => 0xC0FF

/-- The `match` of a command's row (30_encoding.md R64). -/
def rowMatch : Instr → CmdWord
  | .trueMod => 0x0001
  | .mulMod => 0x0002
  | .powMod => 0x0003
  | .invMod => 0x0004
  | .bfly => 0x0005
  | .isGen => 0x0008
  | .gen => 0x0009
  | .getRoot => 0x000A
  | .chkRoot => 0x000B
  | .ntt _ _ => 0x0010
  | .intt _ _ => 0x0011
  | .pwMul _ _ _ => 0x0012
  | .conv _ _ _ => 0x0013
  | .chkConv _ _ _ => 0x0014

/-- "`cw & mask = match`" (30_encoding.md R64) for the word the encoder gives. -/
def EncodesTableRow.Statement (i : Instr) : Prop := encode i &&& rowMask i = rowMatch i

theorem EncodesTableRow.trueMod : EncodesTableRow.Statement .trueMod := by
  unfold Statement; decide
theorem EncodesTableRow.mulMod : EncodesTableRow.Statement .mulMod := by
  unfold Statement; decide
theorem EncodesTableRow.powMod : EncodesTableRow.Statement .powMod := by
  unfold Statement; decide
theorem EncodesTableRow.invMod : EncodesTableRow.Statement .invMod := by
  unfold Statement; decide
theorem EncodesTableRow.bfly : EncodesTableRow.Statement .bfly := by
  unfold Statement; decide
theorem EncodesTableRow.isGen : EncodesTableRow.Statement .isGen := by
  unfold Statement; decide
theorem EncodesTableRow.gen : EncodesTableRow.Statement .gen := by
  unfold Statement; decide
theorem EncodesTableRow.getRoot : EncodesTableRow.Statement .getRoot := by
  unfold Statement; decide
theorem EncodesTableRow.chkRoot : EncodesTableRow.Statement .chkRoot := by
  unfold Statement; decide
theorem EncodesTableRow.ntt (sd sa : BufId) : EncodesTableRow.Statement (.ntt sd sa) := by
  unfold Statement; revert sd sa; decide
theorem EncodesTableRow.intt (sd sa : BufId) : EncodesTableRow.Statement (.intt sd sa) := by
  unfold Statement; revert sd sa; decide
theorem EncodesTableRow.pwMul (sd sa sb : BufId) : EncodesTableRow.Statement (.pwMul sd sa sb) := by
  unfold Statement; revert sd sa sb; decide
theorem EncodesTableRow.conv (sd sa sb : BufId) : EncodesTableRow.Statement (.conv sd sa sb) := by
  unfold Statement; revert sd sa sb; decide
theorem EncodesTableRow.chkConv (sd sa sb : BufId) : EncodesTableRow.Statement (.chkConv sd sa sb) := by
  unfold Statement; revert sd sa sb; decide

end Sys2Proof.Laws
end

