-- ==== Sys2Proof/Laws/Step.lean ====
section
/-!
SUPPORT. Once for all steps: what the next state of a host event, and of a step, can be.
-/

namespace Sys2Proof.Machine

variable {P : Params}

/-- A write that is answered `ERR`: cases (a), (b), (c) of 20_memory.md R46. -/
abbrev WriteRefused (a : HostAddr P) (s : StateAt P) : Prop :=
  target a = .unmapped ∨ target a = .scalar .res ∨ target a = .ecmd ∨ (target a = .cmd ∧ s.fault = true)

/-- The ways a host event ends (20_memory.md R44, R45; 70_reset_and_hazards.md R190). -/
inductive EventEnding (s : StateAt P) : HostEvent P → StateAt P → Prop where
  /-- A read answers and changes no state. -/
  | read (a : HostAddr P) : EventEnding s (.rd a) (s.respond (hostRead a s))
  /-- A scalar register stores the word. -/
  | scalar (a : HostAddr P) (d : Word P) (r : ScalarReg) (ht : target a = .scalar r) (hr : r ≠ .res) :
      EventEnding s (.wr a d) ((s.setScalar r d).respond .done)
  /-- A buffer word is stored. -/
  | buffer (a : HostAddr P) (d : Word P) (k : BufId) (i : Nat) (ht : target a = .buf k i) :
      EventEnding s (.wr a d) ((s.setWord (bufAddr P k i) d).respond .done)
  /-- `STATUS` is written. -/
  | status (a : HostAddr P) (d : Word P) (ht : target a = .status) :
      EventEnding s (.wr a d) ((s.writeStatus d).respond .done)
  /-- An illegal word is written to `CMD`. -/
  | illegal (a : HostAddr P) (d : Word P) (e : Illegal) (ht : target a = .cmd) (hf : s.fault = false)
      (hd : decode d = .error e) :
      EventEnding s (.wr a d) ((s.raise .illegalCommand (cmdWord d)).respond .done)
  /-- A command runs. -/
  | command (a : HostAddr P) (d : Word P) (i : Instr) (u : StateAt P) (ht : target a = .cmd) (hf : s.fault = false)
      (hd : decode d = .ok i) (hx : exec i ⟨P, s⟩ = .next ⟨P, u⟩) : EventEnding s (.wr a d) (u.respond .done)
  /-- A write is refused. -/
  | refused (a : HostAddr P) (d : Word P) (hr : WriteRefused a s) :
      EventEnding s (.wr a d) (s.respond .refusedWrite)
  /-- The reset event. -/
  | reset : EventEnding s .rst s.applyReset

theorem hostWrite_ending {s : StateAt P} {t : State} {a : HostAddr P} {d : Word P}
    (h : hostWrite a d s = .next t) : ∃ u : StateAt P, t = ⟨P, u⟩ ∧ EventEnding s (.wr a d) u := by
  unfold hostWrite at h
  split at h
  · next r ht =>
    split at h
    · next hr =>
      cases h
      exact ⟨_, rfl, .scalar a d r ht (by rintro rfl; simp [ScalarReg.hostWritable] at hr)⟩
    · next hr =>
      cases h
      refine ⟨_, rfl, .refused a d (.inr (.inl ?_))⟩
      cases r <;> simp_all [ScalarReg.hostWritable]
  · next ht =>
    split at h
    · next hf => cases h; exact ⟨_, rfl, .refused a d (.inr (.inr (.inr ⟨ht, hf⟩)))⟩
    · next hf =>
      have hf : s.fault = false := by simpa using hf
      unfold runCommand at h
      split at h
      · next e hd => cases h; exact ⟨_, rfl, .illegal a d e ht hf hd⟩
      · next i hd =>
        cases hx : exec i ⟨P, s⟩ with
        | next t' =>
          rw [hx] at h
          obtain ⟨u, rfl, _⟩ := exec_ending hx
          cases h
          exact ⟨_, rfl, .command a d i u ht hf hd hx⟩
        | fault r => cases r
        | refused r => rw [hx] at h; cases h
  · next ht => cases h; exact ⟨_, rfl, .status a d ht⟩
  · next ht => cases h; exact ⟨_, rfl, .refused a d (.inr (.inr (.inl ht)))⟩
  · next k i ht => cases h; exact ⟨_, rfl, .buffer a d k i ht⟩
  · next ht => cases h; exact ⟨_, rfl, .refused a d (.inl ht)⟩

theorem hostEvent_ending {s : StateAt P} {t : State} {e : HostEvent P} (h : hostEvent e s = .next t) :
    ∃ u : StateAt P, t = ⟨P, u⟩ ∧ EventEnding s e u := by
  cases e with
  | rd a => cases h; exact ⟨_, rfl, .read a⟩
  | wr a d => exact hostWrite_ending h
  | rst => cases h; exact ⟨_, rfl, .reset⟩

/-- All that a step can do: idle, or run the next event; the parameters stay. -/
theorem step_ending {s : StateAt P} {t : State} (h : step ⟨P, s⟩ = .next t) :
    ∃ u : StateAt P, t = ⟨P, u⟩ ∧
      ((s.pending = [] ∧ u = s) ∨
        ∃ e rest, s.pending = e :: rest ∧ EventEnding { s with pending := rest } e u) := by
  unfold step at h
  split at h
  · next hp => cases h; exact ⟨s, rfl, .inl ⟨hp, rfl⟩⟩
  · next e rest hp =>
    obtain ⟨u, hu, he⟩ := hostEvent_ending h
    exact ⟨u, hu, .inr ⟨e, rest, hp, he⟩⟩

/-- A command gives no answer of its own. -/
theorem Ending.responses {i : Instr} {s t : StateAt P} (h : Ending i s t) : t.responses = s.responses := by
  cases h <;> rfl

/-- A transaction adds its one answer at the end, a reset none (20_memory.md R40, 70_reset_and_hazards.md R191). -/
theorem EventEnding.responses {s t : StateAt P} {e : HostEvent P} (h : EventEnding s e t) :
    ∃ own, t.responses = s.responses ++ own ∧ own.length = if e = .rst then 0 else 1 := by
  cases h with
  | reset => exact ⟨[], by simp⟩
  | command a d i u _ _ _ hx =>
    obtain ⟨v, hv, he⟩ := exec_ending hx
    cases hv
    exact ⟨[.done], by simp [he.responses]⟩
  | scalar | status => exact ⟨[.done], by simp [StateAt.writeStatus, apply_ite StateAt.responses]⟩
  | _ => exact ⟨[_], rfl, rfl⟩

/-- What a run has gone wrong by, once its own answers are known (60_exceptions.md R175). -/
theorem State.goneWrong_of_append {s t : StateAt P} {own : List (Response P)}
    (h : t.responses = s.responses ++ own) :
    State.goneWrong ⟨P, s⟩ ⟨P, t⟩ = (t.fault || own.any fun r => !r.ok) := by
  simp [State.goneWrong, State.answersSince, h]

end Sys2Proof.Machine
end

