-- ==== Sys2Proof/Machine/Bridge.lean ====
section
/-!
DEFINITION. The one byte view the spec fixes: a bridge from the word port to a byte-addressed bus is
little-endian (20_memory.md R47). The block itself has no bytes; no step uses this file.
-/

namespace Sys2Proof.Machine

/-- `2^ceil(log2(W/8))`: how many byte addresses of the bridge one word takes (20_memory.md R47);
the least power of two that is not below `W/8`. -/
def bridgeStride (P : Params) : Nat := 2 ^ (2 * ((P.W + 7) / 8) - 1).log2

/-- Byte `lane` of a word, byte 0 being bits 7:0 (20_memory.md R47); bits from `W` up are free (assumption 12). -/
def wordByte {P : Params} (w : Word P) (lane : Nat) : BitVec 8 :=
  if 8 * lane + 8 ≤ P.W then w.extractLsb' (8 * lane) 8
  else w.extractLsb' (8 * lane) 8 ||| Config.bridgeFill P w lane <<< (P.W - 8 * lane)

/-- The byte a bridge shows at a byte address, by a read of the word that holds it; none past the end of the
word address space. -/
def bridgeByte {P : Params} (s : StateAt P) (byteAddr : Nat) : Option (BitVec 8) :=
  if byteAddr / bridgeStride P < P.addrEnd then
    (hostRead (BitVec.ofNat P.AW (byteAddr / bridgeStride P)) s).word.map fun w =>
      wordByte w (byteAddr % bridgeStride P)
  else none

end Sys2Proof.Machine
end

