-- ==== Sys2Proof/Tests/Slice0.lean ====
section
/-!
SUPPORT. The implementer's tests: the checks of WellFormed and of the assembler on ill-formed terms, words
written out from the encoding, one or two single steps per command with the values of 95_test_vectors.md, and
a state for every clause of every statement that has hypotheses.
-/

namespace Sys2Proof.Tests

open Sys2Proof Sys2Proof.Machine

/-- The default parameters, which the vectors of 95_test_vectors.md take unless they say otherwise. -/
abbrev D : Params := .standard

/-- The smallest word with a small buffer: `W = 16`, `LOGNMAX = 4`, the second map of 95_test_vectors.md V15. -/
abbrev small : Params := ⟨16, 4, by decide, by decide, by decide⟩

/-- A command on what a block holds. -/
abbrev run {P : Params} (i : Instr) (s : StateAt P) : Host.Outcome State Fault Refusal := exec i ⟨P, s⟩

/-- A step on what a block holds. -/
abbrev stepOf {P : Params} (s : StateAt P) : Host.Outcome State Fault Refusal := step ⟨P, s⟩

/-- The reset state with scalar operands. -/
def regsAt (P : Params) (mod len root opa opb opc : Int) : StateAt P :=
  { StateAt.reset P with
    mod := bitsW mod, len := bitsW len, root := bitsW root
    opa := bitsW opa, opb := bitsW opb, opc := bitsW opc }

/-- The same at the default parameters. -/
abbrev regs (mod len root opa opb opc : Int) : StateAt D := regsAt D mod len root opa opb opc

/-- `BUF[k][0..]` loaded, as the host would with LDSEQ. -/
def load {P : Params} (s : StateAt P) (k : BufId) (v : List Int) : StateAt P := s.writeSeq k v

/-- A state with events pending. -/
def awaiting {P : Params} (s : StateAt P) (es : List (HostEvent P)) : StateAt P := { s with pending := es }

/-- What the block holds at reset, default parameters. -/
abbrev atReset : StateAt D := .reset D

/-- What a block with the parameters `P` holds next, if the outcome is that of one. -/
def nextAt (P : Params) : Host.Outcome State Fault Refusal → Option (StateAt P)
  | .next t => if h : t.params = P then some (h ▸ t.contents) else none
  | _ => none

/-- The same at the default parameters. -/
abbrev nextOf (o : Host.Outcome State Fault Refusal) : Option (StateAt D) := nextAt D o

/-- `RES`, `FAULT`, `ERR`, `ECMD` of the next state. -/
def scalarOf (o : Host.Outcome State Fault Refusal) : Option (Word D × Bool × BitVec 4 × CmdWord) :=
  (nextOf o).map fun t => (t.res, t.fault, t.err, t.ecmd)

/-- The first words of a buffer of the next state, and its `FAULT` and `ERR`. -/
def seqOf (o : Host.Outcome State Fault Refusal) (k : BufId) (n : Nat) :
    Option (List Int × Bool × BitVec 4) :=
  (nextOf o).map fun t => (t.readSeq k n, t.fault, t.err)

/-- The last answer and `STATUS` of the next state. -/
def answerOf (o : Host.Outcome State Fault Refusal) : Option (Option (Response D) × Word D) :=
  (nextOf o).map fun t => (t.responses.getLast?, t.statusWord)

/-! ## WellFormed: one ill-formed word for each check of 30_encoding.md R65 (95_test_vectors.md V14) -/

theorem test_ill_upper_bits : upperBitsZero 0x00010010#32 = false ∧ wellFormedWord 0x00010010#32 = false := by decide
theorem test_ill_opcode : opcodeKnown 0x00000006#32 = false ∧ wellFormedWord 0x00000006#32 = false := by decide
theorem test_ill_zero_word : opcodeKnown 0#32 = false ∧ wellFormedWord 0#32 = false := by decide
theorem test_ill_zero_field : zeroFieldZero 0x00004010#32 = false ∧ wellFormedWord 0x00004010#32 = false := by decide
theorem test_ill_scalar_fields :
    scalarFieldsZero 0x00001004#32 = false ∧ wellFormedWord 0x00001004#32 = false := by decide
theorem test_ill_one_source_sb :
    oneSourceSbZero 0x00000410#32 = false ∧ wellFormedWord 0x00000410#32 = false := by decide
theorem test_well_formed_words : wellFormedWord 0x00003F14#32 = true ∧ wellFormedWord 0x00000001#32 = true := by decide

/-- 30_encoding.md R66: a buffer index past the end, integers past both ends of the range, sequences too long. -/
theorem test_ill_lines :
    (Line.rd (.buf 0 1024)).wellFormed D = false ∧ (Line.wr .cmd (2 ^ 32)).wellFormed D = false ∧
    (Line.wr .cmd (-2 ^ 31 - 1)).wellFormed D = false ∧ (Line.rdseq 0 1025).wellFormed D = false ∧
    (Line.setup 7 3 (2 ^ 32)).wellFormed D = false ∧ (Line.ldseq 0 [2 ^ 32]).wellFormed D = false ∧
    (Line.ldseq 0 (List.replicate 1025 0)).wellFormed D = false ∧ (Line.wr .cmd (2 ^ 32 - 1)).wellFormed D = true ∧
    (Line.wr .cmd (-2 ^ 31)).wellFormed D = true ∧ (Line.rd (.buf 3 1023)).wellFormed D = true := by decide +kernel

/-! ## Decode: every command's word, written bit by bit from 30_encoding.md R61 and R64
(zero, sd, sb, sa, opcode) -/

theorem test_word_trueMod : decode 0b00_00_00_00_00000001#32 = .ok .trueMod := by decide
theorem test_word_mulMod : decode 0b00_00_00_00_00000010#32 = .ok .mulMod := by decide
theorem test_word_powMod : decode 0b00_00_00_00_00000011#32 = .ok .powMod := by decide
theorem test_word_invMod : decode 0b00_00_00_00_00000100#32 = .ok .invMod := by decide
theorem test_word_bfly : decode 0b00_00_00_00_00000101#32 = .ok .bfly := by decide
theorem test_word_isGen : decode 0b00_00_00_00_00001000#32 = .ok .isGen := by decide
theorem test_word_gen : decode 0b00_00_00_00_00001001#32 = .ok .gen := by decide
theorem test_word_getRoot : decode 0b00_00_00_00_00001010#32 = .ok .getRoot := by decide
theorem test_word_chkRoot : decode 0b00_00_00_00_00001011#32 = .ok .chkRoot := by decide
theorem test_word_ntt : decode 0b00_01_00_10_00010000#32 = .ok (.ntt 1 2) := by decide
theorem test_word_intt : decode 0b00_10_00_01_00010001#32 = .ok (.intt 2 1) := by decide
theorem test_word_pwMul : decode 0b00_10_01_11_00010010#32 = .ok (.pwMul 2 3 1) := by decide
theorem test_word_conv : decode 0b00_11_01_10_00010011#32 = .ok (.conv 3 2 1) := by decide
theorem test_word_chkConv : decode 0b00_01_11_10_00010100#32 = .ok (.chkConv 1 2 3) := by decide

/-- 95_test_vectors.md V14: each rejected word, by the name of its reason. -/
theorem test_rejected_by_name :
    decode 0x80000001#32 = .error .upperBits ∧ decode 0x15#32 = .error .unknownOpcode ∧
    decode 0x8001#32 = .error .zeroField ∧ decode 0x0101#32 = .error .scalarFields ∧
    decode 0x0410#32 = .error .sbField := by decide

theorem test_table_word : decodeTableWord 16 0x2413 = some (.conv 2 0 1) := by decide

/-! ## One step per command (95_test_vectors.md V1 to V13) -/

theorem test_trueMod_most_negative :
    scalarOf (run .trueMod (regs 7 0 0 (-2147483648) 0 0)) = some (5, false, 0, 0) := by decide
theorem test_trueMod_bad_modulus :
    scalarOf (run .trueMod (regs (-7) 0 0 5 0 0)) = some (0, true, 1, 0x0001) := by decide
theorem test_mulMod_62_bits :
    scalarOf (run .mulMod (regs 2147483647 0 0 123456789 987654321 0)) = some (2137109934, false, 0, 0) := by
  decide
theorem test_mulMod_negative : scalarOf (run .mulMod (regs 7 0 0 (-3) 5 0)) = some (6, false, 0, 0) := by decide
theorem test_powMod_large :
    scalarOf (run .powMod (regs 2147483647 0 0 7 123456789 0)) = some (510444705, false, 0, 0) := by
  decide +kernel
theorem test_powMod_negative_exponent :
    scalarOf (run .powMod (regs 7 0 0 2 (-1) 0)) = some (0, true, 4, 0x0003) := by decide
theorem test_invMod_negative : scalarOf (run .invMod (regs 7 0 0 (-3) 0 0)) = some (2, false, 0, 0) := by decide
theorem test_invMod_not_invertible :
    scalarOf (run .invMod (regs 8 0 0 4 0 0)) = some (0, true, 2, 0x0004) := by decide
theorem test_bfly_no_overflow :
    scalarOf (run .bfly (regs 2147483647 0 0 2147483646 2147483646 2147483646)) = some (0, false, 0, 0) := by
  decide
theorem test_bfly_operands : scalarOf (run .bfly (regs 7 0 0 3 4 5)) = some (3, false, 0, 0) := by decide
theorem test_isGen_three : scalarOf (run .isGen (regs 7 0 0 3 0 0)) = some (1, false, 0, 0) := by decide +kernel
theorem test_isGen_zero : scalarOf (run .isGen (regs 7 0 0 0 0 0)) = some (0, false, 0, 0) := by decide +kernel
theorem test_gen_seventeen : scalarOf (run .gen (regs 17 0 0 0 0 0)) = some (3, false, 0, 0) := by decide +kernel
theorem test_gen_composite :
    scalarOf (run .gen (regs 9 0 0 0 0 0)) = some (0, true, 3, 0x0009) := by decide +kernel
theorem test_getRoot_writes_both :
    (nextOf (run .getRoot (regs 17 4 0 0 0 0))).map (fun t => (t.res, t.root)) = some (13, 13) := by
  decide +kernel
theorem test_getRoot_not_dividing :
    (nextOf (run .getRoot (regs 9 3 5 0 0 0))).map (fun t => (t.root, t.err)) = some (5, 4) := by decide +kernel
theorem test_chkRoot_normalizes : scalarOf (run .chkRoot (regs 7 3 (-5) 0 0 0)) = some (1, false, 0, 0) := by
  decide
theorem test_chkRoot_smaller_order : scalarOf (run .chkRoot (regs 7 6 2 0 0 0)) = some (0, false, 0, 0) := by
  decide
theorem test_ntt_in_place :
    seqOf (run (.ntt 0 0) (load (regs 7 3 2 0 0 0) 0 [2, 3, 3])) 0 3 = some ([1, 6, 6], false, 0) := by
  decide +kernel
theorem test_ntt_wrong_root :
    seqOf (run (.ntt 1 0) (load (regs 7 3 3 0 0 0) 1 [85, 1, 2])) 1 3 = some ([85, 1, 2], true, 4) := by
  decide +kernel
theorem test_intt_scenario :
    seqOf (run (.intt 2 1) (load (regs 7 3 2 0 0 0) 1 [1, 6, 6])) 2 3 = some ([2, 3, 3], false, 0) := by
  decide +kernel
theorem test_intt_late_fault :
    seqOf (run (.intt 2 1) (load (load (regs 9 3 4 0 0 0) 1 [6, 3, 0]) 2 [7, 8, 9])) 2 3 =
      some ([7, 8, 9], true, 2) := by
  decide +kernel
theorem test_pwMul_negative :
    seqOf (run (.pwMul 2 0 1) (load (load (regs 7 3 0 0 0 0) 0 [-1, 8, 0]) 1 [3, 3, 3])) 2 3 =
      some ([4, 3, 0], false, 0) := by
  decide +kernel
theorem test_pwMul_tail_kept :
    seqOf (run (.pwMul 0 0 0) (load (regs 7 3 0 0 0 0) 0 [1, 6, 6, -9])) 0 4 =
      some ([1, 1, 1, -9], false, 0) := by
  decide +kernel
theorem test_conv_composite_modulus :
    seqOf (run (.conv 2 0 1) (load (load (regs 15 2 14 0 0 0) 0 [1, 2]) 1 [3, 4])) 2 2 =
      some ([11, 10], false, 0) := by
  decide +kernel
theorem test_conv_not_invertible :
    seqOf (run (.conv 2 0 1) (load (load (load (regs 9 3 4 0 0 0) 0 [1, 2, 3]) 1 [1, 1, 1]) 2 [5, 5, 5])) 2 3 =
      some ([5, 5, 5], true, 2) := by
  decide +kernel
theorem test_chkConv_hand :
    seqOf (run (.chkConv 3 0 1) (load (load (regs 7 3 0 0 0 0) 0 [2, 3, 3]) 1 [1, 2, 3])) 3 3 =
      some ([3, 2, 1], false, 0) := by
  decide +kernel
theorem test_chkConv_rotation :
    seqOf (run (.chkConv 1 0 1) (load (load (regs 7 3 0 0 0 0) 0 [0, 1, 0]) 1 [4, 5, 6])) 1 3 =
      some ([6, 4, 5], false, 0) := by
  decide +kernel

/-! ## The port (95_test_vectors.md V15) and the first step after reset -/

theorem test_read_page_hole :
    answerOf (stepOf (awaiting atReset [.rd 0x0010])) = some (some ⟨false, some 0⟩, 0) := by decide
theorem test_write_last_buffer_word :
    (nextOf (stepOf (awaiting atReset [.wr 0x1FFF 9]))).map (fun t => t.bufWord 3 1023) = some 9 := by decide
theorem test_write_result_refused :
    answerOf (stepOf (awaiting atReset [.wr 0x0006 5])) = some (some ⟨false, none⟩, 0) := by decide
theorem test_fault_clear_keeps_command_word :
    (nextOf (stepOf (awaiting ((regs 7 0 0 0 0 0).afterFault 2 0x0004) [.wr 0x9 0xFFFFFFFF]))).map
      (fun t => (t.statusWord, t.ecmd)) = some (0, 0x0004) := by decide
theorem test_command_refused_in_fault_state :
    answerOf (stepOf (awaiting ((regs 7 0 0 0 0 0).afterFault 2 0x0004) [.wr 0x8 1])) =
      some (some ⟨false, none⟩, 0x21) := by decide
theorem test_illegal_before_modulus :
    answerOf (stepOf (awaiting atReset [.wr 0x8 0x000000FF])) = some (some ⟨true, none⟩, 0x51) := by decide
theorem test_first_command_after_reset :
    (nextOf (step (State.reset.withFetchWord 16 0x2413))).map (fun t => (t.statusWord, t.ecmd)) =
      some (0x11, 0x2413) := by decide
theorem test_reset_event :
    (nextOf (stepOf (awaiting (load (regs 7 3 2 1 1 1) 0 [1]) [.rst]))).map (fun t => (t.mod, t.buf, t.resets)) =
      some (0, [], 1) := by decide

/-- 20_memory.md R47: `BUF[0][0] = -5` at byte addresses 0x4000 to 0x4003 of a bridge, low byte first. -/
theorem test_bridge_little_endian :
    (List.range 4).map (fun i => bridgeByte (load atReset 0 [-5]) (0x4000 + i)) =
      [some 0xFB, some 0xFF, some 0xFF, some 0xFF] := by decide

/-! ## Other parameters (00_scope.md R4) -/

/-- 95_test_vectors.md V15: at `LOGNMAX = 4` the last word of `BUF[3]` is at 0x7F, and 0x3F is unmapped. -/
theorem test_small_address_map :
    (nextAt small (stepOf (awaiting (.reset small) [.wr 0x7F 9]))).map (fun t => t.bufWord 3 15) = some 9 ∧
      (nextAt small (stepOf (awaiting (.reset small) [.rd 0x3F]))).map (·.responses) =
        some [⟨false, some 0⟩] := by decide
/-- The largest modulus at `W = 16`, by hand: `20000 * 20000 mod 32767 = 13231`. -/
theorem test_small_mulMod :
    (nextAt small (run .mulMod (regsAt small 32767 0 0 20000 20000 0))).map (·.res) = some 13231 := by decide
/-- R70 at `NMAX = 16`: `LEN = 17` is PreconditionViolated, `LEN = 16` is none. -/
theorem test_small_length :
    (nextAt small (run (.pwMul 0 0 0) (regsAt small 7 17 0 0 0 0))).map (·.err) = some 4 ∧
      (nextAt small (run (.pwMul 0 0 0) (regsAt small 7 16 0 0 0 0))).map (·.err) = some 0 := by decide +kernel
/-- 20_memory.md R47: a bridge of a 20-bit word has four byte addresses a word. -/
theorem test_bridge_strides : bridgeStride D = 4 ∧ bridgeStride small = 2 ∧
    bridgeStride ⟨20, 4, by decide, by decide, by decide⟩ = 4 := by decide
/-- `W = 16`, `LOGNMAX = 1`: the smallest block 00_scope.md R4 admits. -/
abbrev least : Params := ⟨16, 1, by decide, by decide, by decide⟩

/-- Assumption 13: at `LOGNMAX = 1` the addresses of 20_memory.md R43 for three buffer words are those of
10_state.md R26 to R28; 7 scalar registers, 3 control registers and 8 buffer words do not fit 16 addresses. -/
theorem test_smallest_addresses_collide :
    bufAddr least 0 0 = 0x8 ∧ bufAddr least 0 1 = 0x9 ∧ bufAddr least 1 0 = 0xA ∧
      least.addrEnd < 7 + 3 + Config.NBUF * least.NMAX := by decide
/-- Assumption 13: at `LOGNMAX = 1` the control registers keep 0x8 to 0xA, and 0xB to 0xF are buffer words. -/
theorem test_smallest_address_map :
    target (P := least) 0x8 = .cmd ∧ target (P := least) 0x9 = .status ∧ target (P := least) 0xA = .ecmd ∧
      target (P := least) 0xB = .buf 1 1 ∧ target (P := least) 0xF = .buf 3 1 ∧
      target (P := least) 0x7 = .unmapped := by decide
/-- 30_encoding.md R60 at `LOGNMAX = 1`: the write of TRUEMOD's word to 0x8 runs it, `-3 mod 7 = 4`. -/
theorem test_smallest_runs_commands :
    (nextAt least (stepOf (awaiting (regsAt least 7 0 0 (-3) 0 0) [.wr 0x8 0x0001]))).map
      (fun t => (t.res, t.fault, t.buf)) = some (4, false, []) := by decide

/-! ## A state for every clause that has hypotheses -/

theorem witness_modulus_one : 0 < (regs 1 0 0 5 3 0).mod.toInt := by decide
theorem witness_modulus_largest : 0 < (regs 2147483647 0 0 5 3 0).mod.toInt := by decide
theorem witness_modulus_zero : (regs 0 0 0 5 0 0).mod.toInt ≤ 0 := by decide
theorem witness_powMod_runs :
    0 < (regs 7 0 0 3 0 0).mod.toInt ∧ 0 ≤ (regs 7 0 0 3 0 0).opb.toInt := by decide
theorem witness_powMod_negative :
    0 < (regs 7 0 0 3 (-1) 0).mod.toInt ∧ (regs 7 0 0 3 (-1) 0).opb.toInt < 0 := by decide
theorem witness_invMod_runs :
    0 < (regs 7 0 0 (-3) 0 0).mod.toInt ∧
      Int.gcd ((regs 7 0 0 (-3) 0 0).opa.toInt % (regs 7 0 0 (-3) 0 0).mod.toInt)
        (regs 7 0 0 (-3) 0 0).mod.toInt = 1 := by decide +kernel
theorem witness_invMod_faults :
    0 < (regs 8 0 0 4 0 0).mod.toInt ∧
      Int.gcd ((regs 8 0 0 4 0 0).opa.toInt % (regs 8 0 0 4 0 0).mod.toInt)
        (regs 8 0 0 4 0 0).mod.toInt ≠ 1 := by decide +kernel
theorem witness_isGen_true :
    2 ≤ (regs 2 0 0 1 0 0).mod.toInt ∧ ExactOrder (regs 2 0 0 1 0 0).opa.toInt
      ((regs 2 0 0 1 0 0).mod.toInt - 1).toNat (regs 2 0 0 1 0 0).mod.toInt := by decide
theorem witness_isGen_false :
    2 ≤ (regs 7 0 0 2 0 0).mod.toInt ∧ ¬ ExactOrder (regs 7 0 0 2 0 0).opa.toInt
      ((regs 7 0 0 2 0 0).mod.toInt - 1).toNat (regs 7 0 0 2 0 0).mod.toInt := by decide
theorem witness_modulus_is_one : (regs 1 0 0 0 0 0).mod.toInt = 1 := by decide
theorem witness_gen_prime :
    0 < (regs 7 0 0 0 0 0).mod.toInt ∧ Nat.Prime (regs 7 0 0 0 0 0).mod.toInt.toNat :=
  ⟨by decide, by
    change Nat.Prime 7
    norm_num⟩
theorem witness_gen_composite :
    2 ≤ (regs 4 0 0 0 0 0).mod.toInt ∧ ¬ Nat.Prime (regs 4 0 0 0 0 0).mod.toInt.toNat :=
  ⟨by decide, by
    change ¬ Nat.Prime 4
    norm_num⟩
theorem witness_getRoot_runs :
    0 < (regs 7 3 0 0 0 0).mod.toInt ∧ Nat.Prime (regs 7 3 0 0 0 0).mod.toInt.toNat ∧
      1 ≤ (regs 7 3 0 0 0 0).len.toInt ∧
      (regs 7 3 0 0 0 0).len.toInt ∣ (regs 7 3 0 0 0 0).mod.toInt - 1 :=
  ⟨by decide, by
    change Nat.Prime 7
    norm_num, by decide, by decide⟩
theorem witness_getRoot_bad_length :
    2 ≤ (regs 7 0 0 0 0 0).mod.toInt ∧ (regs 7 0 0 0 0 0).len.toInt < 1 := by decide
theorem witness_getRoot_not_dividing :
    2 ≤ (regs 7 4 0 0 0 0).mod.toInt ∧ 1 ≤ (regs 7 4 0 0 0 0).len.toInt ∧
      ¬ (regs 7 4 0 0 0 0).len.toInt ∣ (regs 7 4 0 0 0 0).mod.toInt - 1 := by decide
theorem witness_getRoot_composite :
    2 ≤ (regs 9 2 0 0 0 0).mod.toInt ∧ 1 ≤ (regs 9 2 0 0 0 0).len.toInt ∧
      (regs 9 2 0 0 0 0).len.toInt ∣ (regs 9 2 0 0 0 0).mod.toInt - 1 ∧
      ¬ Nat.Prime (regs 9 2 0 0 0 0).mod.toInt.toNat :=
  ⟨by decide, by decide, by decide, by
    change ¬ Nat.Prime 9
    norm_num⟩
theorem witness_chkRoot_yes :
    0 < (regs 1 1 5 0 0 0).mod.toInt ∧ 1 ≤ (regs 1 1 5 0 0 0).len.toInt ∧
      ExactOrder (regs 1 1 5 0 0 0).root.toInt (regs 1 1 5 0 0 0).len.toInt.toNat
        (regs 1 1 5 0 0 0).mod.toInt := by decide
theorem witness_chkRoot_no :
    0 < (regs 7 6 2 0 0 0).mod.toInt ∧ 1 ≤ (regs 7 6 2 0 0 0).len.toInt ∧
      ¬ ExactOrder (regs 7 6 2 0 0 0).root.toInt (regs 7 6 2 0 0 0).len.toInt.toNat
        (regs 7 6 2 0 0 0).mod.toInt := by decide
theorem witness_chkRoot_bad_length :
    0 < (regs 7 0 2 0 0 0).mod.toInt ∧ (regs 7 0 2 0 0 0).len.toInt < 1 := by decide

/-- NTT, INTT and CONV run: `MOD = 7`, `LEN = 3`, `ROOT = 2`. -/
theorem witness_transform_runs :
    0 < (regs 7 3 2 0 0 0).mod.toInt ∧ (regs 7 3 2 0 0 0).len.toInt = (3 : Nat) ∧ 1 ≤ 3 ∧ 3 ≤ D.NMAX ∧
      ExactOrder (regs 7 3 2 0 0 0).root.toInt 3 (regs 7 3 2 0 0 0).mod.toInt ∧
      Int.gcd (regs 7 3 2 0 0 0).root.toInt (regs 7 3 2 0 0 0).mod.toInt = 1 ∧
      Int.gcd (3 : Nat) (regs 7 3 2 0 0 0).mod.toInt = 1 := by decide +kernel
/-- The shortest length: `LEN = 1` with `ROOT = 1` modulo `MOD`. -/
theorem witness_transform_length_one :
    0 < (regs 7 1 8 0 0 0).mod.toInt ∧ (regs 7 1 8 0 0 0).len.toInt = (1 : Nat) ∧ 1 ≤ 1 ∧ 1 ≤ D.NMAX ∧
      ExactOrder (regs 7 1 8 0 0 0).root.toInt 1 (regs 7 1 8 0 0 0).mod.toInt ∧
      Int.gcd (regs 7 1 8 0 0 0).root.toInt (regs 7 1 8 0 0 0).mod.toInt = 1 ∧
      Int.gcd (1 : Nat) (regs 7 1 8 0 0 0).mod.toInt = 1 := by decide +kernel
theorem witness_longest_sequence :
    0 < (regs 1 1024 0 0 0 0).mod.toInt ∧ (regs 1 1024 0 0 0 0).len.toInt = (1024 : Nat) ∧ 1 ≤ 1024 ∧
      1024 ≤ D.NMAX := by decide
theorem witness_length_too_small :
    0 < (regs 7 0 1 0 0 0).mod.toInt ∧
      ((regs 7 0 1 0 0 0).len.toInt < 1 ∨ D.NMAX < (regs 7 0 1 0 0 0).len.toInt) := by decide
theorem witness_length_too_large :
    0 < (regs 12289 1025 1 0 0 0).mod.toInt ∧
      ((regs 12289 1025 1 0 0 0).len.toInt < 1 ∨ D.NMAX < (regs 12289 1025 1 0 0 0).len.toInt) := by decide
theorem witness_wrong_root :
    0 < (regs 7 3 3 0 0 0).mod.toInt ∧ 1 ≤ (regs 7 3 3 0 0 0).len.toInt ∧
      (regs 7 3 3 0 0 0).len.toInt ≤ D.NMAX ∧
      ¬ ExactOrder (regs 7 3 3 0 0 0).root.toInt (regs 7 3 3 0 0 0).len.toInt.toNat
        (regs 7 3 3 0 0 0).mod.toInt := by decide
theorem witness_length_not_invertible :
    0 < (regs 9 3 4 0 0 0).mod.toInt ∧ 1 ≤ (regs 9 3 4 0 0 0).len.toInt ∧
      (regs 9 3 4 0 0 0).len.toInt ≤ D.NMAX ∧
      ExactOrder (regs 9 3 4 0 0 0).root.toInt (regs 9 3 4 0 0 0).len.toInt.toNat
        (regs 9 3 4 0 0 0).mod.toInt ∧
      (Int.gcd (regs 9 3 4 0 0 0).root.toInt (regs 9 3 4 0 0 0).mod.toInt ≠ 1 ∨
        Int.gcd (regs 9 3 4 0 0 0).len.toInt (regs 9 3 4 0 0 0).mod.toInt ≠ 1) := by decide +kernel
/-- The prime-modulus statements: round trip and convolution. -/
theorem witness_prime_transform :
    Nat.Prime (regs 7 3 2 0 0 0).mod.toInt.toNat ∧ 0 < (regs 7 3 2 0 0 0).mod.toInt ∧
      (regs 7 3 2 0 0 0).len.toInt = (3 : Nat) ∧
      ExactOrder (regs 7 3 2 0 0 0).root.toInt 3 (regs 7 3 2 0 0 0).mod.toInt :=
  ⟨by
    change Nat.Prime 7
    norm_num, by decide, by decide, by decide⟩
theorem witness_conv_length_one :
    0 < (regs 1 1 0 0 0 0).mod.toInt ∧ (regs 1 1 0 0 0 0).len = 1 ∧
      (regs 1 1 0 0 0 0).root.toInt % (regs 1 1 0 0 0 0).mod.toInt = 1 % (regs 1 1 0 0 0 0).mod.toInt := by
  decide

/-- The two NTT commands of the statelessness clause: different states, one modulus, length, root and source. -/
theorem witness_ntt_stateless :
    let s := load (regs 7 3 2 0 0 0) 0 [2, 3, 3]
    let s' := load (regs 7 3 2 1 1 1) 1 [2, 3, 3]
    s ≠ s' ∧ s.mod = s'.mod ∧ s.len = s'.len ∧ s.root = s'.root ∧
      (∀ j, j < 3 → s.bufWord 0 j = s'.bufWord 1 j) ∧ s.fault = false ∧ s'.fault = false ∧
      (nextOf (run (.ntt 2 0) s)).isSome ∧ (nextOf (run (.ntt 3 1) s')).isSome := by decide +kernel

theorem witness_illegal_write :
    (awaiting atReset [.wr 0x8 0]).pending = .wr 0x8 0 :: [] ∧ atReset.fault = false ∧
      decode 0#32 = .error .unknownOpcode := by decide
theorem witness_legal_write :
    (awaiting (regs 7 0 0 9 0 0) [.wr 0x8 1]).pending = .wr 0x8 1 :: [] ∧
      (awaiting (regs 7 0 0 9 0 0) [.wr 0x8 1]).fault = false ∧ decode 1#32 = .ok .trueMod ∧
      (nextOf (run .trueMod (regs 7 0 0 9 0 0))).isSome := by decide
theorem witness_decoded_word : decode 0x2413#32 = .ok (.conv 2 0 1) := by decide
theorem witness_idle : atReset.pending = [] := by decide
theorem witness_reads :
    (awaiting atReset [.rd 0x1FFF]).pending = .rd 0x1FFF :: [] ∧ (0x1FFF : HostAddr D).toNat = 8191 := by decide

/-- The addresses where the clauses of the write table meet: each falls under one clause. -/
theorem witness_write_addresses :
    (0x0 : HostAddr D).toNat = 0x0 ∧ (0x1 : HostAddr D).toNat = 0x1 ∧ (0x2 : HostAddr D).toNat = 0x2 ∧
    (0x3 : HostAddr D).toNat = 0x3 ∧ (0x4 : HostAddr D).toNat = 0x4 ∧ (0x5 : HostAddr D).toNat = 0x5 ∧
    (0x6 : HostAddr D).toNat = 0x6 ∧ (0x7 : HostAddr D).toNat = 0x7 ∧ (0x8 : HostAddr D).toNat = 0x8 ∧
    (0x9 : HostAddr D).toNat = 0x9 ∧ (0xA : HostAddr D).toNat = 0xA ∧
    (0xA < (0xB : HostAddr D).toNat ∧ (0xB : HostAddr D).toNat < D.bufBase) ∧
    (0xA < (0xFFF : HostAddr D).toNat ∧ (0xFFF : HostAddr D).toNat < D.bufBase) ∧
    D.bufBase ≤ (0x1000 : HostAddr D).toNat ∧ 0xA < (0x1000 : HostAddr D).toNat ∧
    least.bufBase ≤ (0xB : HostAddr least).toNat ∧ 0xA < (0xB : HostAddr least).toNat ∧
    (1 : Word D).toNat % 2 = 1 ∧ (0xFFFFFFFE : Word D).toNat % 2 = 0 := by decide
theorem witness_pending_write :
    (awaiting atReset [.wr 0x0FFF 1, .rd 0x0]).pending = .wr 0x0FFF 1 :: [.rd 0x0] ∧
      (HostEvent.wr 0x0FFF 1 : HostEvent D) ≠ .rst := by decide
theorem witness_buffer_read_back :
    1023 < D.NMAX ∧ 0xA < D.bufBase + (3 : BufId).val * D.NMAX + 1023 ∧ (awaiting atReset [.wr 0x1FFF 9, .rd 0x1FFF]).pending =
      .wr (BitVec.ofNat D.AW (D.bufBase + (3 : BufId).val * D.NMAX + 1023)) 9 ::
      .rd (BitVec.ofNat D.AW (D.bufBase + (3 : BufId).val * D.NMAX + 1023)) :: [] := by decide

/-- A state with a fault pending. -/
def faulted (es : List (HostEvent D)) : StateAt D := awaiting ((regs 8 0 0 4 0 0).afterFault 2 0x0004) es

theorem witness_fault_refuses :
    (faulted [.wr 0x8 4]).fault = true ∧ (faulted [.wr 0x8 4]).pending = .wr 0x8 4 :: [] := by decide
theorem witness_fault_others :
    (faulted [.wr 0x0 7]).fault = true ∧ (faulted [.wr 0x0 7]).pending = .wr 0x0 7 :: [] ∧
      (HostEvent.wr 0x0 7 : HostEvent D) ≠ .rst ∧ (0x0 : HostAddr D) ≠ 0x8 ∧ (0x0 : HostAddr D) ≠ 0x9 ∧
      (nextOf (stepOf (faulted [.wr 0x0 7]))).isSome := by decide
theorem witness_fault_kept :
    (faulted [.wr 0x9 2]).fault = true ∧ (nextOf (stepOf (faulted [.wr 0x9 2]))).isSome ∧
      (2 : Word D).toNat % 2 = 0 ∧ (faulted [.wr 0x9 2]).pending ≠ [.rst] := by decide
theorem witness_fault_clear :
    (faulted [.wr 0x9 1, .wr 0x8 4]).pending = .wr 0x9 1 :: .wr 0x8 4 :: [] ∧
      (1 : Word D).toNat % 2 = 1 := by decide
theorem witness_clear_without_fault :
    (awaiting atReset [.wr 0x9 1]).pending = .wr 0x9 1 :: [] ∧ (awaiting atReset [.wr 0x9 1]).Inv ∧
      (awaiting atReset [.wr 0x9 1]).fault = false := by decide
theorem witness_clear_bit_zero :
    (faulted [.wr 0x9 0xFFFFFFFE]).pending = .wr 0x9 0xFFFFFFFE :: [] ∧
      (0xFFFFFFFE : Word D).toNat % 2 = 0 := by decide

/-- A command that faults and one that does not, from a state without a fault. -/
theorem witness_faulting_command :
    (regs 8 0 0 4 0 0).fault = false ∧
      (nextOf (run .invMod (regs 8 0 0 4 0 0))).map (·.fault) = some true ∧
      (nextOf (run .invMod (regs 7 0 0 4 0 0))).map (·.fault) = some false := by decide
theorem witness_destination :
    (destination (.pwMul 2 0 0)).isSome ∧ destination .gen = none ∧ Instr.gen ≠ .getRoot ∧
      (nextOf (run (.pwMul 2 0 0) (load (regs 7 3 0 0 0 0) 0 [1, 2, 3]))).map (·.buf.length) = some 6 := by
  decide +kernel
/-- A command that changes a buffer word: `BUF[0][0]` from 10 to 100 mod 7. -/
theorem witness_changed_word :
    (nextOf (run (.pwMul 0 0 0) (load (regs 7 1 0 0 0 0) 0 [10]))).map (fun t => t.wordAt 4096) = some 2 ∧
      (load (regs 7 1 0 0 0 0) 0 [10]).wordAt 4096 = 10 := by decide +kernel
theorem witness_reset_event : (awaiting (regs 7 3 2 1 1 1) [.rst]).pending = .rst :: [] := by decide
theorem witness_inv_step :
    (load (awaiting (regs 7 3 2 0 0 0) [.wr 0x8 0x1010]) 0 [2, 3, 3]).Inv ∧
      (nextOf (stepOf (load (awaiting (regs 7 3 2 0 0 0) [.wr 0x8 0x1010]) 0 [2, 3, 3]))).isSome := by
  decide +kernel

/-- Two states that differ in `RES` and `ECMD` alone agree on the operands. -/
theorem witness_same_operands :
    StateAt.sameOperands (regs 7 0 0 9 0 0) { regs 7 0 0 9 0 0 with res := 5, ecmd := 9 } ∧
      (nextOf (run .trueMod (regs 7 0 0 9 0 0))).isSome ∧
      (nextOf (run .trueMod { regs 7 0 0 9 0 0 with res := 5, ecmd := 9 })).isSome :=
  ⟨⟨rfl, rfl, rfl, rfl, rfl, rfl, fun _ _ _ => rfl⟩, by decide, by decide⟩

/-- A run counts its own answers alone (60_exceptions.md R175): clean after an earlier `ERR`, wrong by its own. -/
theorem test_run_counts_own_answers :
    let start : StateAt D := { atReset with responses := [.refusedWrite] }
    (nextOf (State.runPending ⟨D, awaiting start [.wr 0x0 7]⟩)).map
        (fun t => State.goneWrong ⟨D, start⟩ ⟨D, t⟩) = some false ∧
      (nextOf (State.runPending ⟨D, awaiting start [.wr 0x6 7]⟩)).map
        (fun t => State.goneWrong ⟨D, start⟩ ⟨D, t⟩) = some true ∧
      (nextOf (State.runPending ⟨D, awaiting start [.wr 0x8 1]⟩)).map
        (fun t => State.goneWrong ⟨D, start⟩ ⟨D, t⟩) = some true := by decide

theorem witness_power_and_inverse :
    (0 : Int) ≤ 0 ∧ (0 : Int) < 1 ∧ Int.gcd ((0 : Int) % 1) 1 = 1 ∧ Int.gcd ((3 : Int) % 7) 7 = 1 := by
  decide +kernel
theorem witness_primes : 1 ≤ 1 ∧ primes 1 = [] ∧ primes 12 = [2, 3] := by decide +kernel
theorem witness_engine : (0 : Int) < 1 := by decide

/-- CONV as four commands: `BUF[0]`, `BUF[1]` convolved into `BUF[2]` with `BUF[2]`, `BUF[3]` spare. -/
theorem witness_four_commands :
    let s := load (load (regs 7 3 2 0 0 0) 0 [2, 3, 3]) 1 [1, 2, 3]
    (2 : BufId) ≠ 3 ∧ (2 : BufId) ≠ 1 ∧ (3 : BufId) ≠ 0 ∧ s.fault = false ∧ 0 < s.mod.toInt ∧
      1 ≤ s.len.toInt ∧ s.len.toInt ≤ D.NMAX ∧ ExactOrder s.root.toInt s.len.toInt.toNat s.mod.toInt ∧
      (nextOf (run (.conv 2 0 1) s)).isSome := by decide +kernel

end Sys2Proof.Tests
end

/-!
The scope of the block (00_scope.md): every step answers (R13), the parameters are fixed (R4), idleness
keeps the state (60_exceptions.md R171), and commands depend on their operands alone (R11).
-/

namespace Sys2Proof.Machine

variable {P : Params}

/-! ### Every command and every step answers a next state (00_scope.md R13) -/

/-- Every arm of the dispatch is one run of a command under its own word (30_encoding.md R69): what its checks and
function give is committed or raised, and the parameters stay. -/
theorem exec_finishes (i : Instr) (s : State) :
    ∃ r, exec i s = .next ⟨s.params, s.contents.finish i r⟩ := by
  cases i <;> exact ⟨_, rfl⟩

theorem exec_answers (i : Instr) (s : State) : ∃ t, exec i s = .next t :=
  have ⟨_, h⟩ := exec_finishes i s
  ⟨_, h⟩

theorem runCommand_answers (d : Word P) (s : StateAt P) : ∃ t, runCommand d s = .next t := by
  unfold runCommand
  split
  · exact ⟨_, rfl⟩
  · exact exec_answers _ _

theorem hostWrite_answers (a : HostAddr P) (d : Word P) (s : StateAt P) : ∃ t, hostWrite a d s = .next t := by
  unfold hostWrite
  cases target a with
  | scalar r =>
    dsimp only
    split <;> exact ⟨_, rfl⟩
  | cmd =>
    cases s.fault with
    | true => exact ⟨_, rfl⟩
    | false =>
      obtain ⟨t, ht⟩ := runCommand_answers d s
      exact ⟨_, congrArg answerCommand ht⟩
  | status | ecmd | buf | unmapped => exact ⟨_, rfl⟩

theorem hostEvent_answers (e : HostEvent P) (s : StateAt P) : ∃ t, hostEvent e s = .next t := by
  cases e with
  | wr a d => exact hostWrite_answers a d s
  | rd | rst => exact ⟨_, rfl⟩

theorem step_of_idle {s : State} (h : s.contents.pending = []) : step s = .next s := by
  simp [step, h]

theorem step_of_event {s : State} {e : HostEvent s.params} {rest : List (HostEvent s.params)}
    (h : s.contents.pending = e :: rest) : step s = hostEvent e { s.contents with pending := rest } := by
  simp [step, h]

theorem step_answers (s : State) : ∃ t, step s = .next t := by
  cases hp : s.contents.pending with
  | nil => exact ⟨s, step_of_idle hp⟩
  | cons e rest => exact step_of_event hp ▸ hostEvent_answers e _

/-! ### Commands depend on their operands alone (00_scope.md R11) -/

/-- The bodies of one command, run on `s` and on `s'`, end alike: with the same error, or with the same commit made
on either state. -/
inductive CommitsAlike (s s' : StateAt P) :
    Except CmdError (StateAt P) → Except CmdError (StateAt P) → Prop where
  /-- The same error. -/
  | raised (e : CmdError) : CommitsAlike s s' (.error e) (.error e)
  /-- The same value in `RES`. -/
  | result {v v' : Int} (h : v = v') : CommitsAlike s s' (.ok (s.setRes v)) (.ok (s'.setRes v'))
  /-- The same value in `RES` and `ROOT`. -/
  | rootFound (v : Int) :
      CommitsAlike s s' (.ok ((s.setRes v).setRoot v)) (.ok ((s'.setRes v).setRoot v))
  /-- The same sequence in the same destination. -/
  | committed (k : BufId) {v v' : List Int} (h : v = v') :
      CommitsAlike s s' (.ok (s.writeSeq k v)) (.ok (s'.writeSeq k v'))

/-- Peels one check, which answers alike on both states, off both bodies. -/
theorem CommitsAlike.bind {α : Type} {s s' : StateAt P} {x x' : Except CmdError α}
    {f f' : α → Except CmdError (StateAt P)} (hx : x = x')
    (hf : ∀ a, x = .ok a → CommitsAlike s s' (f a) (f' a)) : CommitsAlike s s' (x >>= f) (x' >>= f') := by
  subst hx
  cases x with
  | error e => exact .raised e
  | ok a => exact hf a rfl

section SameOperands

variable {s s' : StateAt P} (h : s.sameOperands s')
include h

theorem StateAt.sameOperands.modulus_eq : s.modulus = s'.modulus := by
  obtain ⟨hmod, -⟩ := h
  simp only [StateAt.modulus, hmod]

theorem StateAt.sameOperands.positiveLen_eq : s.positiveLen = s'.positiveLen := by
  obtain ⟨-, hlen, -⟩ := h
  simp only [StateAt.positiveLen, hlen]

theorem StateAt.sameOperands.seqLen_eq : s.seqLen = s'.seqLen := by
  obtain ⟨-, hlen, -⟩ := h
  simp only [StateAt.seqLen, hlen]

theorem StateAt.sameOperands.checkRoot_eq (n : Nat) (p : Int) : s.checkRoot n p = s'.checkRoot n p := by
  obtain ⟨-, -, hroot, -⟩ := h
  simp only [StateAt.checkRoot, hroot]

theorem StateAt.sameOperands.readSeq_eq (k : BufId) {n : Nat} (hn : n ≤ P.NMAX) :
    s.readSeq k n = s'.readSeq k n := by
  obtain ⟨-, -, -, -, -, -, hbuf⟩ := h
  refine List.map_congr_left fun i hi => ?_
  rw [hbuf k i ((List.mem_range.1 hi).trans_le hn)]

/-- Every command begins with the check of its modulus (30_encoding.md R69). -/
theorem StateAt.sameOperands.alike_modulus {f f' : Int → Except CmdError (StateAt P)}
    (hf : ∀ p, CommitsAlike s s' (f p) (f' p)) : CommitsAlike s s' (s.modulus >>= f) (s'.modulus >>= f') :=
  .bind h.modulus_eq fun p _ => hf p

/-- A sequence command checks its length next (30_encoding.md R70). -/
theorem StateAt.sameOperands.alike_sequence {f f' : Int → Nat → Except CmdError (StateAt P)}
    (hf : ∀ p n, n ≤ P.NMAX → CommitsAlike s s' (f p n) (f' p n)) :
    CommitsAlike s s' (do let p ← s.modulus; let n ← s.seqLen; f p n)
      (do let p ← s'.modulus; let n ← s'.seqLen; f' p n) :=
  h.alike_modulus fun p => .bind h.seqLen_eq fun n hn =>
    have ⟨_, hmax, _⟩ := StateAt.seqLen_eq_ok.1 hn
    hf p n hmax

/-- R11 for every command: run on two states with the same operands, it ends alike. -/
theorem StateAt.sameOperands.exec_alike (i : Instr) :
    ∃ r r', exec i ⟨P, s⟩ = .next ⟨P, s.finish i r⟩ ∧ exec i ⟨P, s'⟩ = .next ⟨P, s'.finish i r'⟩ ∧
      CommitsAlike s s' r r' := by
  have ⟨_, _, hroot, hopa, hopb, hopc, _⟩ := h
  cases i with
  | trueMod =>
    refine ⟨_, _, rfl, rfl, h.alike_modulus fun p => ?_⟩
    exact .result (by rw [hopa])
  | mulMod =>
    refine ⟨_, _, rfl, rfl, h.alike_modulus fun p => ?_⟩
    exact .result (by rw [hopa, hopb])
  | powMod =>
    refine ⟨_, _, rfl, rfl, h.alike_modulus fun p => ?_⟩
    exact .bind (by rw [hopb]) fun _ _ => .result (by rw [hopa, hopb])
  | invMod =>
    refine ⟨_, _, rfl, rfl, h.alike_modulus fun p => ?_⟩
    exact .bind (by rw [hopa]) fun u _ => .result rfl
  | bfly =>
    refine ⟨_, _, rfl, rfl, h.alike_modulus fun p => ?_⟩
    exact .result (by rw [hopa, hopb, hopc])
  | isGen =>
    refine ⟨_, _, rfl, rfl, h.alike_modulus fun p => .bind rfl fun _ _ => ?_⟩
    exact .result (by rw [hopa])
  | gen =>
    refine ⟨_, _, rfl, rfl, h.alike_modulus fun p => .bind rfl fun _ _ => ?_⟩
    exact .bind rfl fun g _ => .result rfl
  | getRoot =>
    refine ⟨_, _, rfl, rfl, h.alike_modulus fun p => .bind rfl fun _ _ => ?_⟩
    exact .bind h.positiveLen_eq fun n _ => .bind rfl fun _ _ => .bind rfl fun w _ => .rootFound w
  | chkRoot =>
    refine ⟨_, _, rfl, rfl, h.alike_modulus fun p => .bind h.positiveLen_eq fun n _ => ?_⟩
    exact .result (by rw [hroot])
  | ntt sd sa =>
    refine ⟨_, _, rfl, rfl, h.alike_sequence fun p n hn => .bind (h.checkRoot_eq n p) fun _ _ => ?_⟩
    exact .committed sd (by rw [h.readSeq_eq sa hn, hroot])
  | intt sd sa =>
    refine ⟨_, _, rfl, rfl, h.alike_sequence fun p n hn => .bind (h.checkRoot_eq n p) fun _ _ => ?_⟩
    exact .bind (by rw [h.readSeq_eq sa hn, hroot]) fun z _ => .committed sd rfl
  | pwMul sd sa sb =>
    refine ⟨_, _, rfl, rfl, h.alike_sequence fun p n hn => ?_⟩
    exact .committed sd (by rw [h.readSeq_eq sa hn, h.readSeq_eq sb hn])
  | conv sd sa sb =>
    refine ⟨_, _, rfl, rfl, h.alike_sequence fun p n hn => .bind (h.checkRoot_eq n p) fun _ _ => ?_⟩
    exact .bind (by rw [h.readSeq_eq sa hn, h.readSeq_eq sb hn, hroot]) fun d _ => .committed sd rfl
  | chkConv sd sa sb =>
    refine ⟨_, _, rfl, rfl, h.alike_sequence fun p n hn => ?_⟩
    exact .committed sd (by rw [h.readSeq_eq sa hn, h.readSeq_eq sb hn])

end SameOperands

/-- One sequence committed on two states: a word they agree on before, they agree on after. -/
theorem StateAt.writeSeq_wordAt_congr {s s' : StateAt P} {a : Nat} (k : BufId) (v : List Int)
    (h : s.wordAt a = s'.wordAt a) : (s.writeSeq k v).wordAt a = (s'.writeSeq k v).wordAt a := by
  by_cases hout : a < bufAddr P k 0 ∨ bufAddr P k 0 + v.length ≤ a
  · rw [s.writeSeq_wordAt_outside hout, s'.writeSeq_wordAt_outside hout, h]
  · obtain ⟨j, rfl⟩ := Nat.exists_eq_add_of_le (by omega : bufAddr P k 0 ≤ a)
    have hj : j < v.length := by omega
    rw [s.writeSeq_wordAt_inside hj, s'.writeSeq_wordAt_inside hj]

end Sys2Proof.Machine

namespace Sys2Proof.Machine

/-! ### The statements settled -/

/-- Settles O21: a command's run always answers, and so does every arm of the port. -/
theorem everyStepAnswers : Obligations.EveryStepAnswers :=
  ⟨exec_answers, step_answers⟩

/-- Settles O22, from what the next state of a command and of a step can be. -/
theorem parametersKept : Obligations.ParametersKept := by
  refine ⟨fun i s t h => ?_, fun s t h => ?_⟩
  · obtain ⟨u, rfl, -⟩ := exec_ending h
    rfl
  · obtain ⟨u, rfl, -⟩ := step_ending h
    rfl

/-- Settles O39: the command ends alike on both states, and what it commits is the same function of them. -/
theorem commandsArePure : Obligations.CommandsArePure := by
  intro P i s s' t t' hs hf hf' ht ht'
  obtain ⟨r, r', hr, hr', halike⟩ := hs.exec_alike i
  obtain ⟨-, -, hroot, -, -, -, hbuf⟩ := hs
  cases hr.symm.trans ht
  cases hr'.symm.trans ht'
  have hclean : ¬ s.fault = true := by simp [hf]
  cases halike with
  | raised e => exact ⟨rfl, fun _ => ⟨rfl, rfl⟩, hroot, hbuf, .inr ⟨rfl, rfl⟩⟩
  | result hv =>
    subst hv
    exact ⟨hf.trans hf'.symm, fun hc => absurd hc hclean, hroot, hbuf, .inl rfl⟩
  | rootFound v =>
    exact ⟨hf.trans hf'.symm, fun hc => absurd hc hclean, rfl, hbuf, .inl rfl⟩
  | committed k hv =>
    subst hv
    exact ⟨hf.trans hf'.symm, fun hc => absurd hc hclean, hroot,
      fun k' j hj => StateAt.writeSeq_wordAt_congr k _ (hbuf k' j hj), .inr ⟨rfl, rfl⟩⟩

/-- Settles O23, by the step's equation for an empty list of events. -/
theorem idleKeepsState : Obligations.IdleKeepsState := fun _ h => step_of_idle h

end Sys2Proof.Machine

/-!
The state of the block (10_state.md): what reset gives (R33), which registers and buffer words a command can
change (R21, R24), what `RES` holds after it (R23), and the invariant every step keeps (R26, R160, R88, R40).
-/

namespace Sys2Proof.Machine

variable {P : Params}

/-! ### Buffer words a commit reaches (20_memory.md R43) -/

/-- The buffers lie whole inside the address space. -/
theorem bufAddr_add_NMAX_le (k : BufId) : bufAddr P k 0 + P.NMAX ≤ P.addrEnd := by
  have hpos := NMAX_pos (P := P)
  obtain ⟨-, hlast⟩ := bufAddr_bounds (P := P) k (i := P.NMAX - 1) (by omega)
  simp only [bufAddr] at hlast ⊢
  omega

/-- A word that a commit changes is at an index of the committed sequence. -/
theorem StateAt.writeSeq_wordAt_ne {s : StateAt P} {k : BufId} {v : List Int} {a : Nat}
    (h : (s.writeSeq k v).wordAt a ≠ s.wordAt a) : bufAddr P k 0 ≤ a ∧ a < bufAddr P k 0 + v.length := by
  by_contra hout
  exact h (s.writeSeq_wordAt_outside (by omega))

/-! ### What a scalar command leaves in `RES` (10_state.md R23) -/

/-- The number every result of a command lies below: 2 where it is a truth value, else the modulus. -/
def resultBound (m : Int) : Instr → Int
  | .isGen | .chkRoot => 2
  | _ => m

theorem resultBound_of_truth {i : Instr} (m : Int) (h : i = .isGen ∨ i = .chkRoot) : resultBound m i = 2 := by
  rcases h with rfl | rfl <;> rfl

theorem resultBound_of_element {i : Instr} (m : Int) (h : i ≠ .isGen) (h' : i ≠ .chkRoot) :
    resultBound m i = m := by
  unfold resultBound
  split
  · exact absurd rfl h
  · exact absurd rfl h'
  · rfl

/-- `RES` of `u` holds a result of the command `i` run on `s`. -/
abbrev HoldsResult (i : Instr) (s u : StateAt P) : Prop :=
  ∃ v, InField (resultBound (sint s.mod) i) v ∧ u.res = bitsW v

/-- Fault entry apart, a run that begins with the check of its modulus leaves what its body commits. -/
theorem finish_holdsResult {i : Instr} {s : StateAt P} {body : Int → Except CmdError (StateAt P)}
    (hb : 0 < sint s.mod → ∀ u, body (sint s.mod) = .ok u → HoldsResult i s u)
    (hf : (s.finish i (s.modulus >>= body)).fault = false) :
    HoldsResult i s (s.finish i (s.modulus >>= body)) := by
  generalize hu : s.finish i _ = u at hf ⊢
  rcases StateAt.finish_eq.1 hu with h | ⟨e, -, rfl⟩
  · obtain ⟨p, hp, h⟩ := bind_eq_ok.1 h
    obtain ⟨h0, rfl⟩ := StateAt.modulus_eq_ok.1 hp
    exact hb h0 _ h
  · simp at hf

/-- R23: a scalar command that does not fault leaves a result in `RES`. -/
theorem exec_holdsResult {i : Instr} {s t : StateAt P} (hd : destination i = none)
    (h : exec i ⟨P, s⟩ = .next ⟨P, t⟩) (hf : t.fault = false) : HoldsResult i s t := by
  cases i with
  | trueMod =>
    cases h
    refine finish_holdsResult (fun h0 u hb => ?_) hf
    cases hb
    exact ⟨_, trueMod_inField h0 _, rfl⟩
  | mulMod =>
    cases h
    refine finish_holdsResult (fun h0 u hb => ?_) hf
    cases hb
    exact ⟨_, mulmod_inField h0 _ _, rfl⟩
  | powMod =>
    cases h
    refine finish_holdsResult (fun h0 u hb => ?_) hf
    obtain ⟨_, -, hb⟩ := bind_eq_ok.1 hb
    cases hb
    exact ⟨_, powerMod_inField h0 _ _, rfl⟩
  | invMod =>
    cases h
    refine finish_holdsResult (fun h0 u hb => ?_) hf
    obtain ⟨v, hv, hb⟩ := bind_eq_ok.1 hb
    cases hb
    exact ⟨v, inverse_inField h0 (orRaise_eq_ok.1 hv), rfl⟩
  | bfly =>
    cases h
    refine finish_holdsResult (fun h0 u hb => ?_) hf
    cases hb
    exact ⟨_, bflyCell_inField h0 _ _ _, rfl⟩
  | isGen =>
    cases h
    refine finish_holdsResult (fun h0 u hb => ?_) hf
    obtain ⟨_, -, hb⟩ := bind_eq_ok.1 hb
    cases hb
    exact ⟨_, truthBit_range _, rfl⟩
  | gen =>
    cases h
    refine finish_holdsResult (fun h0 u hb => ?_) hf
    obtain ⟨_, -, hb⟩ := bind_eq_ok.1 hb
    obtain ⟨g, hg, hb⟩ := bind_eq_ok.1 hb
    cases hb
    obtain ⟨hg1, hgp, -⟩ := generator_range h0 (orRaise_eq_ok.1 hg)
    exact ⟨g, ⟨by omega, hgp⟩, rfl⟩
  | getRoot =>
    cases h
    refine finish_holdsResult (fun h0 u hb => ?_) hf
    obtain ⟨_, -, hb⟩ := bind_eq_ok.1 hb
    obtain ⟨n, -, hb⟩ := bind_eq_ok.1 hb
    obtain ⟨_, -, hb⟩ := bind_eq_ok.1 hb
    obtain ⟨w, hw, hb⟩ := bind_eq_ok.1 hb
    cases hb
    exact ⟨w, rootOfOrder_inField h0 (orRaise_eq_ok.1 hw), rfl⟩
  | chkRoot =>
    cases h
    refine finish_holdsResult (fun h0 u hb => ?_) hf
    obtain ⟨n, -, hb⟩ := bind_eq_ok.1 hb
    cases hb
    exact ⟨_, truthBit_range _, rfl⟩
  | ntt | intt | pwMul | conv | chkConv => cases hd

/-- A fault and a sequence command leave `RES` as it was. -/
theorem Ending.res_kept {i : Instr} {s t : StateAt P} (h : Ending i s t) (hs : s.fault = false)
    (hk : t.fault = true ∨ (destination i).isSome) : t.res = s.res := by
  cases h with
  | raised | committed => rfl
  | result v _ _ hd => simp [hs, hd] at hk
  | rootFound v _ _ hi => simp [hs, hi, destination] at hk

/-! ### The invariant (10_state.md R26, 60_exceptions.md R160, 40_modular_arithmetic.md R88) -/

theorem CmdError.code_ne_zero (e : CmdError) : e.code ≠ 0 := by cases e <;> decide

theorem CmdError.code_le (e : CmdError) : e.code.toNat ≤ 5 := by cases e <;> decide

/-- A read that is answered `ERR` returns 0 (20_memory.md R40). -/
theorem hostRead_refused {a : HostAddr P} {s : StateAt P} (h : (hostRead a s).ok = false) :
    (hostRead a s).word = some 0 := by
  unfold hostRead at h ⊢
  split at h
  case h_6 => rfl
  all_goals cases h

/-- The reset state has the invariant whatever the parameters (10_state.md R33). -/
theorem StateAt.reset_inv (P : Params) : (StateAt.reset P).Inv :=
  ⟨by simp [StateAt.reset], by simp [StateAt.reset], by simp [StateAt.reset], rfl, by simp [StateAt.reset]⟩

namespace StateAt.Inv

variable {s : StateAt P}

theorem respond {r : Response P} (h : s.Inv) (hr : r.ok = false → r.word = none ∨ r.word = some 0) :
    (s.respond r).Inv := by
  obtain ⟨hstatus, hcode, hres, hbuf, hanswers⟩ := h
  refine ⟨hstatus, hcode, hres, hbuf, fun q hq => ?_⟩
  rcases List.mem_append.1 hq with hq | hq
  · exact hanswers q hq
  · rw [List.mem_singleton.1 hq]
    exact hr

theorem respond_done (h : s.Inv) : (s.respond .done).Inv := h.respond nofun

theorem respond_refusedWrite (h : s.Inv) : (s.respond .refusedWrite).Inv := h.respond fun _ => .inl rfl

theorem raise (h : s.Inv) (e : CmdError) (cw : CmdWord) : (s.raise e cw).Inv := by
  obtain ⟨-, -, hkept⟩ := h
  exact ⟨⟨fun h0 => absurd h0 e.code_ne_zero, nofun⟩, e.code_le, hkept⟩

theorem writeStatus (h : s.Inv) (d : Word P) : (s.writeStatus d).Inv := by
  unfold StateAt.writeStatus
  split
  · obtain ⟨-, -, hkept⟩ := h
    exact ⟨by simp, by simp, hkept⟩
  · exact h

theorem setScalar (h : s.Inv) {r : ScalarReg} (hr : r ≠ .res) (w : Word P) : (s.setScalar r w).Inv := by
  cases r with
  | res => exact absurd rfl hr
  | mod | len | root | opa | opb | opc => exact h

theorem setRes (h : s.Inv) {v : Int} (h0 : 0 ≤ v) (h1 : v < 2 ^ (P.W - 1)) : (s.setRes v).Inv := by
  obtain ⟨hstatus, hcode, -, hkept⟩ := h
  exact ⟨hstatus, hcode, bitsW_msb h0 h1, hkept⟩

/-- A buffers' list in canonical form takes the place of the old one. -/
theorem withBuf (h : s.Inv) {m : Memory P} (hm : m.wf = true) : StateAt.Inv { s with buf := m } := by
  obtain ⟨hstatus, hcode, hres, -, hanswers⟩ := h
  exact ⟨hstatus, hcode, hres, hm, hanswers⟩

theorem setWord (h : s.Inv) (k : BufId) {i : Nat} (hi : i < P.NMAX) (w : Word P) :
    (s.setWord (bufAddr P k i) w).Inv := by
  have ⟨_, _, _, hbuf, _⟩ := h
  obtain ⟨hlo, hhi⟩ := bufAddr_bounds (P := P) k hi
  exact h.withBuf (Memory.wf_write w hbuf hlo hhi)

theorem writeSeq (h : s.Inv) (k : BufId) {v : List Int} (hv : v.length ≤ P.NMAX) : (s.writeSeq k v).Inv := by
  have ⟨_, _, _, hbuf, _⟩ := h
  obtain ⟨hlo, -⟩ := bufAddr_bounds (P := P) k NMAX_pos
  have hend := bufAddr_add_NMAX_le (P := P) k
  exact h.withBuf (Memory.wf_writeFrom hbuf hlo (by rw [List.length_map]; omega))

/-- A reset event gives the reset state's registers and keeps the answers (70_reset_and_hazards.md R190). -/
theorem applyReset (h : s.Inv) : s.applyReset.Inv := by
  obtain ⟨-, -, -, -, hanswers⟩ := h
  obtain ⟨hstatus, hcode, hres, hbuf, -⟩ := StateAt.reset_inv P
  exact ⟨hstatus, hcode, hres, hbuf, hanswers⟩

/-- Every command keeps the invariant, by the ways it can end. -/
theorem ending {i : Instr} {t : StateAt P} (h : s.Inv) (ht : Ending i s t) : t.Inv := by
  cases ht with
  | raised e => exact h.raise e _
  | result v h0 h1 => exact h.setRes h0 h1
  | rootFound v h0 h1 => exact h.setRes h0 (inField_fits ⟨h0, h1⟩)
  | committed sd v _ hn => exact h.writeSeq sd hn

/-- Every host event keeps the invariant, by the ways it can end. -/
theorem eventEnding {e : HostEvent P} {t : StateAt P} (h : s.Inv) (ht : EventEnding s e t) : t.Inv := by
  cases ht with
  | read a => exact h.respond fun hr => .inr (hostRead_refused hr)
  | scalar a d r _ hr => exact (h.setScalar hr d).respond_done
  | buffer a d k i hbuf =>
    obtain ⟨hi, -⟩ := target_buf_lt hbuf
    exact (h.setWord k hi d).respond_done
  | status a d => exact (h.writeStatus d).respond_done
  | illegal a d => exact (h.raise _ _).respond_done
  | command a d i u _ _ _ hx =>
    obtain ⟨_, hu, hend⟩ := exec_ending hx
    cases hu
    exact (h.ending hend).respond_done
  | refused => exact h.respond_refusedWrite
  | reset => exact h.applyReset

end StateAt.Inv

end Sys2Proof.Machine

namespace Sys2Proof.Machine

/-! ### The statements settled -/

/-- Settles O37: a step idles or runs one event, and neither breaks the invariant. -/
theorem stepKeepsInv : Obligations.StepKeepsInv := by
  intro s t hs h
  obtain ⟨u, rfl, ⟨-, rfl⟩ | ⟨e, rest, -, hend⟩⟩ := step_ending h
  · exact hs
  · have hpopped : StateAt.Inv { s.contents with pending := rest } := hs
    exact hpopped.eventEnding hend

/-- Settles O38, from the values at reset. -/
theorem resetHasInv : Obligations.ResetHasInv := ⟨StateAt.reset_inv _, StateAt.reset_inv⟩

/-- Settles O32, by the ways a command ends: each writes its own target and nothing else. -/
theorem operandRegistersKept : Obligations.OperandRegistersKept := by
  intro P i s t h
  obtain ⟨_, hu, hend⟩ := exec_ending h
  cases hu
  cases hend with
  | raised e => simp
  | result v _ _ hd => simp [hd]
  | rootFound v _ _ hi => simp [hi, destination]
  | committed sd v hd => simp [hd]

/-- Settles O33: only a commit changes buffer words, and it reaches `LEN` words of its destination. -/
theorem writesOnlyDestination : Obligations.WritesOnlyDestination := by
  intro P i s t a h hne
  obtain ⟨_, hu, hend⟩ := exec_ending h
  cases hu
  cases hend with
  | raised | result | rootFound => exact absurd rfl hne
  | committed sd v hd hn hl =>
    obtain ⟨hlo, hhi⟩ := StateAt.writeSeq_wordAt_ne hne
    have hlen : s.len.toInt = v.length := hl
    simp only [bufAddr] at hlo hhi
    exact ⟨sd, hd, by omega, by omega, by omega⟩

/-- Settles O34: the result's range is its function's, and fits a word; the rest leaves `RES`. -/
theorem resultRange : Obligations.ResultRange := by
  intro P i s t hs h
  refine ⟨fun hf hd => ?_, fun hk => ?_⟩
  · obtain ⟨v, ⟨h0, h1⟩, hres⟩ := exec_holdsResult hd h hf
    refine ⟨fun htruth => ?_, fun hgen hroot => ?_⟩
    · rw [resultBound_of_truth _ htruth] at h1
      obtain rfl | rfl : v = 0 ∨ v = 1 := by omega
      · exact .inl hres
      · exact .inr hres
    · rw [resultBound_of_element _ hgen hroot] at h1
      have hint : t.res.toInt = v := hres ▸ sint_bitsW h0 (inField_fits ⟨h0, h1⟩)
      exact hint ▸ ⟨h0, h1⟩
  · obtain ⟨_, hu, hend⟩ := exec_ending h
    cases hu
    exact hend.res_kept hs hk

/-- Settles O36, field by field of the reset state. -/
theorem resetValues : Obligations.ResetValues :=
  ⟨fun _ => ⟨rfl, rfl, rfl, rfl, rfl, rfl, rfl, rfl, rfl, rfl, rfl, rfl, rfl⟩, rfl, rfl, rfl⟩

end Sys2Proof.Machine

/-!
The host port (20_memory.md): the address map as the numbers of R42 and R43, what a read (R44) and a write (R45) of
each address does and answers, which transactions are refused (R46), and the run of a command behind `CMD` (R69).
-/

namespace Sys2Proof.Machine

variable {P : Params}

/-! ### The address map (20_memory.md R42, R43) -/

/-- The register numbers 0x0 to 0xA name ten registers and, at 0x7, nothing: no target has two of them. -/
theorem registerPage_inj : ∀ m ≤ 0xA, ∀ n ≤ 0xA, registerPage m = registerPage n → m = n := by decide

theorem registerPage_of_gt {n : Nat} (h : 0xA < n) : registerPage n = .unmapped := by
  unfold registerPage
  split
  case h_11 => rfl
  all_goals omega

theorem registerPage_index (r : ScalarReg) : registerPage r.index = .scalar r := by
  cases r <;> rfl

theorem ScalarReg.index_le (r : ScalarReg) : r.index ≤ 6 := by
  cases r <;> decide

/-- An address that is a register number names that register. -/
theorem target_of_toNat {a : HostAddr P} {n : Nat} (h : a.toNat = n) (hn : n ≤ 0xA) : target a = registerPage n :=
  h ▸ target_of_register (h ▸ hn)

/-- Between the registers and the buffer page nothing is mapped. -/
theorem target_of_hole {a : HostAddr P} (hlo : 0xA < a.toNat) (hhi : a.toNat < P.bufBase) :
    target a = .unmapped := by
  rw [target_of_lt hhi]
  split
  · exact registerPage_of_gt hlo
  · rfl

/-- The address map whole: a register number, the hole above the registers, or a buffer word. -/
theorem target_cases (a : HostAddr P) :
    (a.toNat ≤ 0xA ∧ target a = registerPage a.toNat) ∨
      ((0xA < a.toNat ∧ a.toNat < P.bufBase) ∧ target a = .unmapped) ∨
      ((0xA < a.toNat ∧ P.bufBase ≤ a.toNat) ∧ ∃ k i, target a = .buf k i) := by
  by_cases hreg : a.toNat ≤ 0xA
  · exact .inl ⟨hreg, target_of_register hreg⟩
  · have hlo : 0xA < a.toNat := by omega
    by_cases hpage : P.bufBase ≤ a.toNat
    · obtain ⟨k, i, ht, -⟩ := target_of_page hpage hlo
      exact .inr (.inr ⟨⟨hlo, hpage⟩, k, i, ht⟩)
    · have hhi : a.toNat < P.bufBase := by omega
      exact .inr (.inl ⟨⟨hlo, hhi⟩, target_of_hole hlo hhi⟩)

/-- A mapped register has its own number as its one address. -/
theorem target_eq_registerPage {a : HostAddr P} {n : Nat} (hn : n ≤ 0xA) (h7 : n ≠ 0x7) :
    target a = registerPage n ↔ a.toNat = n := by
  refine ⟨fun h => ?_, fun h => target_of_toNat h hn⟩
  rcases target_cases a with ⟨hreg, ht⟩ | ⟨-, ht⟩ | ⟨-, k, i, ht⟩
  · exact registerPage_inj _ hreg _ hn (ht.symm.trans h)
  · exact absurd (registerPage_inj 0x7 (by decide) _ hn (ht.symm.trans h)).symm h7
  · exact absurd (h.symm.trans ht) (registerPage_ne_buf n k i)

theorem target_eq_scalar {a : HostAddr P} {r : ScalarReg} : target a = .scalar r ↔ a.toNat = r.index := by
  have hr := r.index_le
  rw [← registerPage_index]
  exact target_eq_registerPage (by omega) (by omega)

theorem target_eq_cmd {a : HostAddr P} : target a = .cmd ↔ a.toNat = 0x8 :=
  target_eq_registerPage (n := 0x8) (by decide) (by decide)

theorem target_eq_status {a : HostAddr P} : target a = .status ↔ a.toNat = 0x9 :=
  target_eq_registerPage (n := 0x9) (by decide) (by decide)

theorem target_eq_ecmd {a : HostAddr P} : target a = .ecmd ↔ a.toNat = 0xA :=
  target_eq_registerPage (n := 0xA) (by decide) (by decide)

/-- The unmapped addresses: 0x7 and the hole above the registers. -/
theorem target_eq_unmapped {a : HostAddr P} :
    target a = .unmapped ↔ a.toNat = 0x7 ∨ (0xA < a.toNat ∧ a.toNat < P.bufBase) := by
  refine ⟨fun h => ?_, ?_⟩
  · rcases target_cases a with ⟨hreg, ht⟩ | ⟨hhole, -⟩ | ⟨-, k, i, ht⟩
    · exact .inl (registerPage_inj _ hreg 0x7 (by decide) (ht.symm.trans h))
    · exact .inr hhole
    · cases ht.symm.trans h
  · rintro (h | ⟨hlo, hhi⟩)
    · exact target_of_toNat h (by decide)
    · exact target_of_hole hlo hhi

/-- Every address of the buffer page is the address of a buffer word, the control registers' three included
(20_memory.md R43, assumption 13). -/
theorem exists_bufAddr_eq {a : HostAddr P} (h : P.bufBase ≤ a.toNat) :
    ∃ (k : BufId) (i : Nat), i < P.NMAX ∧ bufAddr P k i = a.toNat := by
  have hlo : 4 ≤ a.toNat / P.NMAX := (Nat.le_div_iff_mul_le NMAX_pos).2 (bufBase_eq (P := P) ▸ h)
  have hhi : a.toNat / P.NMAX < 8 := (Nat.div_lt_iff_lt_mul NMAX_pos).2 (hostAddr_lt a)
  refine ⟨⟨a.toNat / P.NMAX - 4, by change _ < 4; omega⟩, a.toNat % P.NMAX, Nat.mod_lt _ NMAX_pos, ?_⟩
  rw [bufAddr_eq, Nat.add_sub_cancel' hlo]
  exact Nat.div_add_mod' _ _

/-- A buffer word written reads back, and every other word of every buffer is as before. -/
theorem StateAt.setWord_bufWord (s : StateAt P) {k k' : BufId} {i i' : Nat} (h : i < P.NMAX) (h' : i' < P.NMAX)
    (w : Word P) :
    (s.setWord (bufAddr P k i) w).bufWord k' i' = if (k', i') = (k, i) then w else s.bufWord k' i' := by
  simp only [StateAt.bufWord, StateAt.setWord_wordAt, bufAddr_inj h' h, Prod.mk.injEq]

/-- `CMD` has one address. -/
theorem hostAddr_eq_cmd {a : HostAddr P} : a = 0x8 ↔ a.toNat = 0x8 := by
  rw [← BitVec.toNat_inj]
  exact iff_of_eq (congrArg (a.toNat = ·) (registerAddr_toNat (n := 8) (by decide)))

/-! ### The words of `STATUS` and `ECMD` (20_memory.md R44) and the words written to `CMD` and `STATUS` (R45) -/

/-- `STATUS` as a number: `ERR` from bit 4 on, `FAULT` at bit 0. -/
theorem StateAt.statusWord_eq (s : StateAt P) :
    s.statusWord = BitVec.ofNat P.W (16 * s.err.toNat + s.fault.toNat) := by
  have hbits : (s.err ++ 0#3 ++ BitVec.ofBool s.fault).toNat = 16 * s.err.toNat + s.fault.toNat := by
    generalize s.err = e
    generalize s.fault = f
    revert e f
    decide
  rw [StateAt.statusWord, ← hbits, BitVec.ofNat_toNat]

theorem StateAt.ecmdWord_eq (s : StateAt P) : s.ecmdWord = BitVec.ofNat P.W s.ecmd.toNat :=
  (BitVec.ofNat_toNat ..).symm

theorem cmdWord_eq_ofNat (d : Word P) : cmdWord d = BitVec.ofNat 16 d.toNat := by
  rw [← BitVec.toNat_inj, cmdWord_toNat, BitVec.toNat_ofNat]

theorem StateAt.writeStatus_of_odd (s : StateAt P) {d : Word P} (h : d.toNat % 2 = 1) :
    s.writeStatus d = s.clearFault :=
  if_pos (by rw [BitVec.getLsbD, Nat.testBit_zero, h]; rfl)

theorem StateAt.writeStatus_of_even (s : StateAt P) {d : Word P} (h : d.toNat % 2 = 0) : s.writeStatus d = s :=
  if_neg (by rw [BitVec.getLsbD, Nat.testBit_zero, h]; decide)

/-! ### What a read answers (20_memory.md R44) -/

/-- One row of a table of cases: where the condition holds its value is right, else the rows below decide. -/
theorem eq_ite_of_imp {α : Type} {c : Prop} [Decidable c] {r x y : α} (hx : c → r = x) (hy : ¬ c → r = y) :
    r = if c then x else y :=
  (ite_eq_iff'.2 ⟨fun h => (hx h).symm, fun h => (hy h).symm⟩).symm

section Read

variable {a : HostAddr P} (s : StateAt P)

theorem hostRead_scalar {r : ScalarReg} (h : target a = .scalar r) : hostRead a s = ⟨true, some (s.scalar r)⟩ := by
  rw [hostRead, h]; rfl

theorem hostRead_cmd (h : target a = .cmd) : hostRead a s = ⟨true, some 0⟩ := by
  rw [hostRead, h]; rfl

theorem hostRead_status (h : target a = .status) :
    hostRead a s = ⟨true, some (BitVec.ofNat P.W (16 * s.err.toNat + s.fault.toNat))⟩ := by
  rw [hostRead, h, ← s.statusWord_eq]; rfl

theorem hostRead_ecmd (h : target a = .ecmd) : hostRead a s = ⟨true, some (BitVec.ofNat P.W s.ecmd.toNat)⟩ := by
  rw [hostRead, h, ← s.ecmdWord_eq]; rfl

theorem hostRead_buf {k : BufId} {i : Nat} (h : target a = .buf k i) :
    hostRead a s = ⟨true, some (s.bufWord k i)⟩ := by
  rw [hostRead, h]; rfl

theorem hostRead_unmapped (h : target a = .unmapped) : hostRead a s = ⟨false, some 0⟩ := by
  rw [hostRead, h]; rfl

/-- A buffer address reads as the word at it. -/
theorem hostRead_page (hpage : P.bufBase ≤ a.toNat) (hlo : 0xA < a.toNat) :
    hostRead a s = ⟨true, some (s.wordAt a.toNat)⟩ := by
  obtain ⟨k, i, ht, -, ha⟩ := target_of_page hpage hlo
  rw [hostRead_buf s ht, StateAt.bufWord, ha]

/-- R46 (a): a read is refused exactly where nothing is mapped. -/
theorem hostRead_ok_eq_false : (hostRead a s).ok = false ↔ target a = .unmapped := by
  refine ⟨fun h => ?_, fun h => by rw [hostRead_unmapped s h]⟩
  unfold hostRead at h
  split at h
  case h_6 ht => exact ht
  all_goals cases h

end Read

/-! ### What a write does and answers (20_memory.md R45) -/

section Write

variable {a : HostAddr P} (d : Word P) {s : StateAt P}

theorem hostWrite_scalar {r : ScalarReg} (h : target a = .scalar r) (hr : r ≠ .res) :
    hostWrite a d s = .next ⟨P, (s.setScalar r d).respond .done⟩ := by
  rw [hostWrite, h]
  exact if_pos (bne_iff_ne.2 hr)

theorem hostWrite_cmd (h : target a = .cmd) (hf : s.fault = false) :
    hostWrite a d s = answerCommand (runCommand d s) := by
  rw [hostWrite, h]
  exact if_neg (by simp [hf])

theorem hostWrite_status (h : target a = .status) :
    hostWrite a d s = .next ⟨P, (s.writeStatus d).respond .done⟩ := by
  rw [hostWrite, h]

theorem hostWrite_buf {k : BufId} {i : Nat} (h : target a = .buf k i) :
    hostWrite a d s = .next ⟨P, (s.setWord (bufAddr P k i) d).respond .done⟩ := by
  rw [hostWrite, h]

/-- A buffer address takes the word written. -/
theorem hostWrite_page (hpage : P.bufBase ≤ a.toNat) (hlo : 0xA < a.toNat) :
    hostWrite a d s = .next ⟨P, (s.setWord a.toNat d).respond .done⟩ := by
  obtain ⟨k, i, ht, -, ha⟩ := target_of_page hpage hlo
  rw [hostWrite_buf d ht, ha]

/-- R46: a refused write answers and does nothing else. -/
theorem hostWrite_refused (h : WriteRefused a s) : hostWrite a d s = .next ⟨P, s.respond .refusedWrite⟩ := by
  unfold hostWrite
  rcases h with h | h | h | ⟨h, hf⟩
  · rw [h]
  · rw [h]; rfl
  · rw [h]
  · rw [h]; exact if_pos hf

/-- R46 on the address as a number. -/
theorem writeRefused_iff :
    WriteRefused a s ↔ (a.toNat = 0x7 ∨ (0xA < a.toNat ∧ a.toNat < P.bufBase)) ∨ a.toNat = 0x6 ∨ a.toNat = 0xA ∨
      (a.toNat = 0x8 ∧ s.fault = true) := by
  rw [WriteRefused, target_eq_unmapped, target_eq_scalar, target_eq_ecmd, target_eq_cmd]
  rfl

/-- A write is answered `ERR` exactly if R46 refuses it, and then only the answer is added. -/
theorem EventEnding.write_answer {t : StateAt P} (h : EventEnding s (.wr a d) t) :
    ∃ r, t.responses = s.responses ++ [r] ∧ (r.ok = false ↔ WriteRefused a s) ∧
      (r.ok = false → t = s.respond r) := by
  cases h with
  | refused _ _ hr => exact ⟨.refusedWrite, rfl, iff_of_true rfl hr, fun _ => rfl⟩
  | scalar _ _ r ht hr => exact ⟨.done, by simp, iff_of_false nofun (by simp [WriteRefused, ht, hr]), nofun⟩
  | buffer _ _ k i ht => exact ⟨.done, rfl, iff_of_false nofun (by simp [WriteRefused, ht]), nofun⟩
  | status _ _ ht =>
    refine ⟨.done, ?_, iff_of_false nofun (by simp [WriteRefused, ht]), nofun⟩
    simp [StateAt.writeStatus, apply_ite StateAt.responses]
  | illegal _ _ e ht hf => exact ⟨.done, rfl, iff_of_false nofun (by simp [WriteRefused, ht, hf]), nofun⟩
  | command _ _ i u ht hf _ hx =>
    obtain ⟨_, hv, hend⟩ := exec_ending hx
    cases hv
    exact ⟨.done, by simp [hend.responses], iff_of_false nofun (by simp [WriteRefused, ht, hf]), nofun⟩

end Write

/-- A legal word runs its command (30_encoding.md R69). -/
theorem runCommand_of_decode {d : Word P} {i : Instr} (h : decode d = .ok i) (s : StateAt P) :
    runCommand d s = exec i ⟨P, s⟩ := by
  rw [runCommand, h]

/-- An illegal word is a fault with the word's low half (30_encoding.md R65, 60_exceptions.md R162). -/
theorem runCommand_of_illegal {d : Word P} {e : Illegal} (h : decode d = .error e) (s : StateAt P) :
    runCommand d s = .next ⟨P, s.afterFault 5 (BitVec.ofNat 16 d.toNat)⟩ := by
  rw [runCommand, h, cmdWord_eq_ofNat]
  rfl

/-- All that a write of a command word without a fault pending does: a command's run or the fault of an illegal word,
answered `OK`. -/
theorem runCommand_cases (d : Word P) (s : StateAt P) :
    ∃ t : StateAt P, answerCommand (runCommand d s) = .next ⟨P, { t with responses := s.responses ++ [.done] }⟩ ∧
      ((∃ i, decode d = .ok i ∧ exec i ⟨P, s⟩ = .next ⟨P, t⟩) ∨
        ((∀ i, decode d ≠ .ok i) ∧ t = s.afterFault 5 (BitVec.ofNat 16 d.toNat))) := by
  cases hd : decode d with
  | error e => exact ⟨_, congrArg answerCommand (runCommand_of_illegal hd s), .inr ⟨nofun, rfl⟩⟩
  | ok i =>
    obtain ⟨_, hx⟩ := exec_answers i ⟨P, s⟩
    obtain ⟨t, rfl, hend⟩ := exec_ending hx
    refine ⟨t, ?_, .inl ⟨i, rfl, hx⟩⟩
    rw [runCommand_of_decode hd, hx, ← hend.responses]
    rfl

/-! ### The step of a transaction (20_memory.md R49) -/

section Transaction

variable {s : StateAt P} {a : HostAddr P} {rest : List (HostEvent P)}

/-- A read changes nothing but the model's own queue and answers. -/
theorem step_of_read {r : Response P} (h : s.pending = .rd a :: rest)
    (hr : hostRead a { s with pending := rest } = r) :
    step ⟨P, s⟩ = .next ⟨P, { s with pending := rest, responses := s.responses ++ [r] }⟩ := by
  subst hr
  exact step_of_event (s := ⟨P, s⟩) h

theorem step_of_write {d : Word P} (h : s.pending = .wr a d :: rest) :
    step ⟨P, s⟩ = hostWrite a d { s with pending := rest } :=
  step_of_event (s := ⟨P, s⟩) h

end Transaction

end Sys2Proof.Machine

namespace Sys2Proof.Machine

/-! ### The statements settled -/

/-- Settles O20: the port hands the decoded command to `exec`, and answers what comes back. -/
theorem stepRunsDecodedCommand : Obligations.StepRunsDecodedCommand := by
  intro P s data rest i hp hf hd
  rw [step_of_write hp, hostWrite_cmd (s := { s with pending := rest }) data target_cmd hf, runCommand_of_decode hd]
  cases exec i ⟨P, _⟩ with
  | next | fault | refused => rfl

/-- Settles O24, address by address down the table of R44. -/
theorem portReadTable : Obligations.PortReadTable := by
  intro P s a rest hp
  refine step_of_read hp ?_
  refine eq_ite_of_imp (fun h => hostRead_scalar _ (r := .mod) (target_eq_scalar.2 h)) fun _ => ?_
  refine eq_ite_of_imp (fun h => hostRead_scalar _ (r := .len) (target_eq_scalar.2 h)) fun _ => ?_
  refine eq_ite_of_imp (fun h => hostRead_scalar _ (r := .root) (target_eq_scalar.2 h)) fun _ => ?_
  refine eq_ite_of_imp (fun h => hostRead_scalar _ (r := .opa) (target_eq_scalar.2 h)) fun _ => ?_
  refine eq_ite_of_imp (fun h => hostRead_scalar _ (r := .opb) (target_eq_scalar.2 h)) fun _ => ?_
  refine eq_ite_of_imp (fun h => hostRead_scalar _ (r := .opc) (target_eq_scalar.2 h)) fun _ => ?_
  refine eq_ite_of_imp (fun h => hostRead_scalar _ (r := .res) (target_eq_scalar.2 h)) fun _ => ?_
  refine eq_ite_of_imp (fun h => hostRead_cmd _ (target_eq_cmd.2 h)) fun _ => ?_
  refine eq_ite_of_imp (fun h => hostRead_status _ (target_eq_status.2 h)) fun _ => ?_
  refine eq_ite_of_imp (fun h => hostRead_ecmd _ (target_eq_ecmd.2 h)) fun _ => ?_
  have hb := bufBase_ge (P := P)
  refine eq_ite_of_imp (fun hpage => hostRead_page _ hpage (by omega)) fun _ => ?_
  exact hostRead_unmapped _ (target_eq_unmapped.2 (by omega))

/-- Settles O25, clause by clause from the port's equation for the address's target. -/
theorem portWriteTable : Obligations.PortWriteTable := by
  intro P s a d rest hp
  rw [step_of_write hp]
  refine ⟨fun h => hostWrite_scalar d (r := .mod) (target_eq_scalar.2 h) nofun,
    fun h => hostWrite_scalar d (r := .len) (target_eq_scalar.2 h) nofun,
    fun h => hostWrite_scalar d (r := .root) (target_eq_scalar.2 h) nofun,
    fun h => hostWrite_scalar d (r := .opa) (target_eq_scalar.2 h) nofun,
    fun h => hostWrite_scalar d (r := .opb) (target_eq_scalar.2 h) nofun,
    fun h => hostWrite_scalar d (r := .opc) (target_eq_scalar.2 h) nofun,
    fun h hf => ?_, fun h hf => ?_, fun h hbit => ?_, fun h hbit => ?_, fun hpage hlo => ?_, fun h => ?_⟩
  · exact hostWrite_refused d (writeRefused_iff.2 (by simp [h, hf]))
  · rw [hostWrite_cmd (s := { s with pending := rest }) d (target_eq_cmd.2 h) hf]
    exact runCommand_cases d _
  · rw [hostWrite_status d (target_eq_status.2 h), StateAt.writeStatus_of_odd _ hbit]
    rfl
  · rw [hostWrite_status d (target_eq_status.2 h), StateAt.writeStatus_of_even _ hbit]
    rfl
  · refine ⟨_, hostWrite_page d hpage hlo, rfl, ?_, fun b hb => ?_⟩
    · exact (StateAt.setWord_wordAt _ _ _ d).trans (if_pos rfl)
    · exact (StateAt.setWord_wordAt _ _ b d).trans (if_neg hb)
  · exact hostWrite_refused d (writeRefused_iff.2 (by omega))

/-- Settles O26: a read is refused by its address alone, a write by `WriteRefused`. -/
theorem refusedExactly : Obligations.RefusedExactly := by
  intro P s e rest hp hrst
  cases e with
  | rst => exact absurd rfl hrst
  | rd a =>
    refine ⟨_, _, step_of_read hp rfl, rfl, ?_, fun _ => rfl⟩
    rw [hostRead_ok_eq_false, target_eq_unmapped]
    simp
  | wr a d =>
    obtain ⟨t, ht⟩ := hostWrite_answers a d { s with pending := rest }
    obtain ⟨u, rfl, hend⟩ := hostWrite_ending ht
    obtain ⟨r, hresp, hok, hkept⟩ := hend.write_answer
    refine ⟨u, r, (step_of_write hp).trans ht, hresp, ?_, hkept⟩
    rw [hok, writeRefused_iff]
    simp [← hostAddr_eq_cmd, or_assoc]

/-- Settles O27: the write stores the word at its own address, and the read finds it there. -/
theorem bufferWriteReadBack : Obligations.BufferWriteReadBack := by
  intro P
  refine ⟨fun a hpage => ?_, fun s k i d rest hi hlo hp => ?_⟩
  · obtain ⟨k, i, hi, ha⟩ := exists_bufAddr_eq hpage
    exact ⟨k, i, hi, ha.symm⟩
  · have ht := target_bufAddr (P := P) k hi hlo
    have hwrite := (step_of_write hp).trans (hostWrite_buf d ht)
    have hself (t : StateAt P) : (t.setWord (bufAddr P k i) d).bufWord k i = d :=
      (t.setWord_bufWord hi hi d).trans (if_pos rfl)
    have hread (t : StateAt P) (hd : t.bufWord k i = d) :
        hostRead (BitVec.ofNat P.AW (bufAddr P k i)) t = ⟨true, some d⟩ := hd ▸ hostRead_buf t ht
    refine ⟨_, _, hwrite, step_of_read rfl (hread _ (hself _)), List.append_assoc .., rfl, hself _, ?_⟩
    exact fun k' i' hi' hne => (StateAt.setWord_bufWord _ hi hi' d).trans (if_neg hne)

end Sys2Proof.Machine

/-!
The command encoding (30_encoding.md): the fields of a command word (R61), decode and encode as inverses (R68), the
legal words (R65), the rows by mask and match (R64) and the pseudo-instructions (R67).
-/

namespace Sys2Proof

/-! ### The five fields of a command word (30_encoding.md R61) -/

/-- The word with the given fields, high bits first; unlike `layout`, its top field can hold any value. -/
def fields (z sd sb sa : BitVec 2) (op : BitVec 8) : CmdWord := z ++ sd ++ sb ++ sa ++ op

theorem layout_eq_fields (sd sb sa : BitVec 2) (op : BitVec 8) : layout sd sb sa op = fields 0 sd sb sa op := rfl

section Fields

variable {z sd sb sa : BitVec 2} {op : BitVec 8}

/-- The sum of R66: the fields do not overlap. -/
theorem fields_toNat :
    (fields z sd sb sa op).toNat =
      z.toNat * 16384 + sd.toNat * 4096 + sb.toNat * 1024 + sa.toNat * 256 + op.toNat := by
  have happend {m n : Nat} (a : BitVec m) (b : BitVec n) : (a ++ b).toNat = a.toNat * 2 ^ n + b.toNat := by
    rw [BitVec.toNat_append, ← Nat.shiftLeft_add_eq_or_of_lt b.isLt, Nat.shiftLeft_eq]
  simp only [fields, happend]
  omega

/-- Every word is made of its fields. -/
theorem exists_eq_fields (cw : CmdWord) : ∃ z sd sb sa op, cw = fields z sd sb sa op := by
  refine ⟨cw.extractLsb' 14 2, cw.extractLsb' 12 2, cw.extractLsb' 10 2, cw.extractLsb' 8 2, cw.extractLsb' 0 8, ?_⟩
  have hlt := cw.isLt
  simp only [← BitVec.toNat_inj, fields_toNat, BitVec.extractLsb'_toNat, Nat.shiftRight_eq_div_pow]
  omega

theorem fields_opcode_toNat : (fields z sd sb sa op).toNat % 256 = op.toNat := by
  rw [fields_toNat]; omega

theorem fields_sa_toNat : (fields z sd sb sa op).toNat / 256 % 4 = sa.toNat := by
  rw [fields_toNat]; omega

theorem fields_sb_toNat : (fields z sd sb sa op).toNat / 1024 % 4 = sb.toNat := by
  rw [fields_toNat]; omega

theorem fields_sd_toNat : (fields z sd sb sa op).toNat / 4096 % 4 = sd.toNat := by
  rw [fields_toNat]; omega

theorem fields_zero_toNat : (fields z sd sb sa op).toNat / 16384 % 4 = z.toNat := by
  rw [fields_toNat]; omega

/-- The three selectors are the one field `cw[13:8]` of R65 (d). -/
theorem fields_selectors_eq_zero :
    (fields z sd sb sa op).toNat / 256 % 64 = 0 ↔ sd = 0 ∧ sb = 0 ∧ sa = 0 := by
  rw [fields_toNat]
  simp only [← BitVec.toNat_inj, BitVec.ofNat_eq_ofNat, BitVec.toNat_ofNat, Nat.zero_mod]
  omega

theorem fields_inj {z' sd' sb' sa' : BitVec 2} {op' : BitVec 8} :
    fields z sd sb sa op = fields z' sd' sb' sa' op' ↔
      z = z' ∧ sd = sd' ∧ sb = sb' ∧ sa = sa' ∧ op = op' := by
  simp only [← BitVec.toNat_inj, fields_toNat]
  omega

theorem fields_and (z' sd' sb' sa' : BitVec 2) (op' : BitVec 8) :
    fields z sd sb sa op &&& fields z' sd' sb' sa' op' =
      fields (z &&& z') (sd &&& sd') (sb &&& sb') (sa &&& sa') (op &&& op') := by
  refine BitVec.and_append.trans (congrArg (· ++ (op &&& op')) ?_)
  simp only [BitVec.and_append]

/-- A field read by the decoder is the field the word was made with. -/
theorem extractLsb'_eq_of_toNat {n start len : Nat} {cw : BitVec n} {b : BitVec len}
    (h : cw.toNat / 2 ^ start % 2 ^ len = b.toNat) : cw.extractLsb' start len = b := by
  rw [← BitVec.toNat_inj, BitVec.extractLsb'_toNat, Nat.shiftRight_eq_div_pow, h]

theorem opcodeOf_fields : opcodeOf (fields z sd sb sa op) = op :=
  extractLsb'_eq_of_toNat (by simpa using fields_opcode_toNat)

theorem saOf_fields : saOf (fields z sd sb sa op) = sa.toFin :=
  congrArg BitVec.toFin (extractLsb'_eq_of_toNat fields_sa_toNat)

theorem sbOf_fields : sbOf (fields z sd sb sa op) = sb.toFin :=
  congrArg BitVec.toFin (extractLsb'_eq_of_toNat fields_sb_toNat)

theorem sdOf_fields : sdOf (fields z sd sb sa op) = sd.toFin :=
  congrArg BitVec.toFin (extractLsb'_eq_of_toNat fields_sd_toNat)

theorem zeroField_fields : (fields z sd sb sa op).extractLsb' 14 2 = z :=
  extractLsb'_eq_of_toNat fields_zero_toNat

theorem selectorFields_eq_zero :
    (fields z sd sb sa op).extractLsb' 8 6 = 0 ↔ sd = 0 ∧ sb = 0 ∧ sa = 0 := by
  rw [← fields_selectors_eq_zero (z := z) (op := op), ← BitVec.toNat_inj, BitVec.extractLsb'_toNat,
    Nat.shiftRight_eq_div_pow]
  rfl

/-! ### The decoder on a word's fields (30_encoding.md R68) -/

theorem decodeScalar_fields {i j : Instr} :
    decodeScalar (fields z sd sb sa op) i = .ok j ↔ (sd = 0 ∧ sb = 0 ∧ sa = 0) ∧ i = j := by
  rw [← selectorFields_eq_zero (z := z) (op := op), decodeScalar]
  split <;> simp_all

theorem decodeOneSource_fields {c : BufId → BufId → Instr} {j : Instr} :
    decodeOneSource (fields z sd sb sa op) c = .ok j ↔ sb = 0 ∧ c sd.toFin sa.toFin = j := by
  rw [decodeOneSource, sbOf_fields, sdOf_fields, saOf_fields, ← BitVec.toFin_inj]
  split <;> simp_all

theorem decodeTwoSource_fields {c : BufId → BufId → BufId → Instr} {j : Instr} :
    decodeTwoSource (fields z sd sb sa op) c = .ok j ↔ c sd.toFin sa.toFin sb.toFin = j := by
  rw [decodeTwoSource, sbOf_fields, sdOf_fields, saOf_fields, Except.ok.injEq]

theorem decodeCmd_fields {j : Instr} :
    decodeCmd (fields z sd sb sa op) = .ok j ↔ z = 0 ∧ decodeOpcode (fields z sd sb sa op) = .ok j := by
  rw [decodeCmd, zeroField_fields]
  split <;> simp_all

end Fields

/-! ### Decode and encode are inverses (30_encoding.md R68) -/

/-- An encoded command decodes to the command: its opcode picks the arm, its fields give the selectors. -/
theorem decodeOpcode_encode (i : Instr) : decodeOpcode (encode i) = .ok i := by
  cases i with
  | ntt | intt =>
    simp only [encode, layout_eq_fields, decodeOpcode, opcodeOf_fields]
    exact decodeOneSource_fields.2 ⟨rfl, rfl⟩
  | pwMul | conv | chkConv =>
    simp only [encode, layout_eq_fields, decodeOpcode, opcodeOf_fields]
    exact decodeTwoSource_fields.2 rfl
  | _ => rfl

section Inverse

variable {sd sb sa : BitVec 2} {op : BitVec 8} {n : Nat} {j : Instr}

theorem scalar_eq_encode {i : Instr} (hop : op.toNat = n) (he : encode i = layout 0 0 0 (.ofNat 8 n))
    (h : decodeScalar (fields 0 sd sb sa op) i = .ok j) : fields 0 sd sb sa op = encode j := by
  obtain ⟨⟨rfl, rfl, rfl⟩, rfl⟩ := decodeScalar_fields.1 h
  rw [he, ← hop, BitVec.ofNat_toNat, BitVec.setWidth_eq, layout_eq_fields]

theorem oneSource_eq_encode {c : BufId → BufId → Instr} (hop : op.toNat = n)
    (he : ∀ d a, encode (c d a) = layout (selector d) 0 (selector a) (.ofNat 8 n))
    (h : decodeOneSource (fields 0 sd sb sa op) c = .ok j) : fields 0 sd sb sa op = encode j := by
  obtain ⟨rfl, rfl⟩ := decodeOneSource_fields.1 h
  rw [he, ← hop, BitVec.ofNat_toNat, BitVec.setWidth_eq, layout_eq_fields]
  rfl

theorem twoSource_eq_encode {c : BufId → BufId → BufId → Instr} (hop : op.toNat = n)
    (he : ∀ d a b, encode (c d a b) = layout (selector d) (selector b) (selector a) (.ofNat 8 n))
    (h : decodeTwoSource (fields 0 sd sb sa op) c = .ok j) : fields 0 sd sb sa op = encode j := by
  obtain rfl := decodeTwoSource_fields.1 h
  rw [he, ← hop, BitVec.ofNat_toNat, BitVec.setWidth_eq, layout_eq_fields]
  rfl

end Inverse

/-- A word that decodes is the encoded one: the strict decoder leaves no bit of it free. -/
theorem eq_encode_of_decodeCmd {cw : CmdWord} {i : Instr} (h : decodeCmd cw = .ok i) : cw = encode i := by
  obtain ⟨z, sd, sb, sa, op, rfl⟩ := exists_eq_fields cw
  obtain ⟨rfl, h⟩ := decodeCmd_fields.1 h
  rw [decodeOpcode, opcodeOf_fields] at h
  split at h
  case h_1 hop | h_2 hop | h_3 hop | h_4 hop | h_5 hop | h_6 hop | h_7 hop | h_8 hop | h_9 hop =>
    exact scalar_eq_encode hop rfl h
  case h_10 hop | h_11 hop => exact oneSource_eq_encode hop (fun _ _ => rfl) h
  case h_12 hop | h_13 hop | h_14 hop => exact twoSource_eq_encode hop (fun _ _ _ => rfl) h
  case h_15 => cases h

theorem decodeCmd_eq_ok {cw : CmdWord} {i : Instr} : decodeCmd cw = .ok i ↔ cw = encode i := by
  refine ⟨eq_encode_of_decodeCmd, ?_⟩
  rintro rfl
  have hz : (encode i).extractLsb' 14 2 = 0#2 := by cases i <;> exact zeroField_fields
  rw [decodeCmd, if_neg (not_ne_iff.2 hz), decodeOpcode_encode]

/-- A word without upper bits is its own command word, zero-extended (R60). -/
theorem eq_setWidth_cmdWord {W : Nat} {data : BitVec W} (h : data.toNat < 65536) :
    data = (cmdWord data).setWidth W := by
  rw [← BitVec.toNat_inj, BitVec.toNat_setWidth, cmdWord_toNat, Nat.mod_eq_of_lt h, Nat.mod_eq_of_lt data.isLt]

/-! ### The legal words (30_encoding.md R65) -/

section Legal

variable {z sd sb sa : BitVec 2} {op : BitVec 8}

/-- R65 (b), (d) and (e), arm by arm of the opcode map. -/
theorem exists_decodeOpcode_iff :
    (∃ i, decodeOpcode (fields z sd sb sa op) = .ok i) ↔
      op.toNat ∈ scalarOpcodes ++ oneSourceOpcodes ++ twoSourceOpcodes ∧
        (op.toNat < 0x10 → sd = 0 ∧ sb = 0 ∧ sa = 0) ∧ (op.toNat ∈ oneSourceOpcodes → sb = 0) := by
  rw [decodeOpcode, opcodeOf_fields, scalarOpcodes, oneSourceOpcodes, twoSourceOpcodes]
  split
  case h_1 hop | h_2 hop | h_3 hop | h_4 hop | h_5 hop | h_6 hop | h_7 hop | h_8 hop | h_9 hop =>
    simp [decodeScalar_fields, hop]
  case h_10 hop | h_11 hop => simp [decodeOneSource_fields, hop]
  case h_12 hop | h_13 hop | h_14 hop => simp [decodeTwoSource_fields, hop]
  case h_15 => simp_all

end Legal

/-- R65 on the word as a number: none of (a) to (e) holds. -/
theorem exists_decode_iff {W : Nat} (data : BitVec W) :
    (∃ i, decode data = .ok i) ↔
      data.toNat / 65536 = 0 ∧
        data.toNat % 256 ∈ scalarOpcodes ++ oneSourceOpcodes ++ twoSourceOpcodes ∧
        data.toNat / 16384 % 4 = 0 ∧
        (data.toNat % 256 < 0x10 → data.toNat / 256 % 64 = 0) ∧
        (data.toNat % 256 ∈ oneSourceOpcodes → data.toNat / 1024 % 4 = 0) := by
  simp only [decode_eq_ok, exists_and_left, Nat.div_eq_zero_iff_lt (show 0 < 65536 by decide)]
  refine and_congr_right fun hlt => ?_
  have hcw : (cmdWord data).toNat = data.toNat := (cmdWord_toNat data).trans (Nat.mod_eq_of_lt hlt)
  have hzero (b : BitVec 2) : b.toNat = 0 ↔ b = 0 := BitVec.toNat_inj (y := 0)
  rw [← hcw]
  obtain ⟨z, sd, sb, sa, op, hf⟩ := exists_eq_fields (cmdWord data)
  simp only [hf, fields_opcode_toNat, fields_zero_toNat, fields_sb_toNat, fields_selectors_eq_zero, hzero,
    decodeCmd_fields, exists_and_left, exists_decodeOpcode_iff]
  exact and_left_comm

/-! ### The rows of the opcode map (30_encoding.md R64) -/

section Rows

variable {cw : CmdWord} {op : BitVec 8} {d a b : BufId}

theorem toNat_eq_selector {x : BitVec 2} {k : BufId} : x.toNat = k.val ↔ x = selector k :=
  BitVec.toNat_inj (y := selector k)

/-- A mask over `zero`, the opcode and, by `m`, the field `sb` reads off these alone. -/
theorem fields_and_mask {z sd sb sa m : BitVec 2} {o : BitVec 8} :
    fields z sd sb sa o &&& fields (.allOnes 2) 0 m 0 (.allOnes 8) = layout 0 0 0 op ↔
      z = 0 ∧ sb &&& m = 0 ∧ o = op := by
  simp only [layout_eq_fields, fields_and, fields_inj, BitVec.and_allOnes, BitVec.ofNat_eq_ofNat, BitVec.and_zero,
    true_and]

/-- An S row fixes every bit. -/
theorem eq_scalarWord_iff : cw = layout 0 0 0 op ↔ cw &&& 0xFFFF = layout 0 0 0 op := by
  rw [show (0xFFFF : CmdWord) = BitVec.allOnes 16 from rfl, BitVec.and_allOnes]

/-- A V1 row leaves `cw[13:12]` and `cw[9:8]` free. -/
theorem eq_oneSourceWord_iff :
    cw = layout (selector d) 0 (selector a) op ↔
      cw &&& 0xCCFF = layout 0 0 0 op ∧ cw.toNat / 4096 % 4 = d.val ∧ cw.toNat / 256 % 4 = a.val := by
  obtain ⟨z, sd, sb, sa, o, rfl⟩ := exists_eq_fields cw
  rw [show (0xCCFF : CmdWord) = fields (.allOnes 2) 0 (.allOnes 2) 0 (.allOnes 8) from rfl, fields_and_mask]
  simp only [layout_eq_fields, fields_inj, fields_sd_toNat, fields_sa_toNat, toNat_eq_selector, BitVec.and_allOnes]
  tauto

/-- A V2 row leaves all three selectors free. -/
theorem eq_twoSourceWord_iff :
    cw = layout (selector d) (selector b) (selector a) op ↔
      cw &&& 0xC0FF = layout 0 0 0 op ∧ cw.toNat / 4096 % 4 = d.val ∧ cw.toNat / 1024 % 4 = b.val ∧
        cw.toNat / 256 % 4 = a.val := by
  obtain ⟨z, sd, sb, sa, o, rfl⟩ := exists_eq_fields cw
  rw [show (0xC0FF : CmdWord) = fields (.allOnes 2) 0 0 0 (.allOnes 8) from rfl, fields_and_mask]
  simp only [layout_eq_fields, fields_inj, fields_sd_toNat, fields_sb_toNat, fields_sa_toNat, toNat_eq_selector,
    BitVec.ofNat_eq_ofNat, BitVec.and_zero, true_and]
  tauto

end Rows

end Sys2Proof

namespace Sys2Proof.Machine

/-! ### The pseudo-instructions (30_encoding.md R67) -/

/-- `LDSEQ` gives element `j` the index `i + j`. -/
theorem loadFrom_eq_mapIdx (P : Params) (k : BufId) (i : Nat) (v : List Int) :
    loadFrom P k i v = v.mapIdx fun j x => writeTo P (.buf k (i + j)) x := by
  induction v generalizing i with
  | nil => rfl
  | cons x xs ih =>
    simp only [loadFrom, ih, List.mapIdx_cons, Nat.add_zero, Nat.add_assoc, Nat.add_comm 1]

theorem bitsW_one {W : Nat} : (bitsW 1 : BitVec W) = 1 := by simp [bitsW]

/-! ### The statements settled -/

/-- Settles O15: on 16 bits the two are inverse, and a written word adds only its zero upper bits. -/
theorem decodeEncodeAgree : Obligations.DecodeEncodeAgree := by
  intro P
  refine ⟨fun i => ?_, fun data i h => ?_⟩
  · exact (decode_setWidth P.wordWide _).trans (decodeCmd_eq_ok.2 rfl)
  · obtain ⟨hlt, hcmd⟩ := decode_eq_ok.1 h
    have hcw := decodeCmd_eq_ok.1 hcmd
    exact ⟨by rw [encodeWord, ← hcw]; exact eq_setWidth_cmdWord hlt, hcw⟩

/-- Settles O16: the legal words by the decoder's arms, and the port's run of a word that decodes to none. -/
theorem illegalWordsRule : Obligations.IllegalWordsRule := by
  intro P
  refine ⟨fun data => ?_, fun s data rest hp hf hbad => ?_⟩
  · rw [← not_exists, exists_decode_iff]
    simp only [not_and_or, Classical.not_imp]
    rfl
  · cases hd : decode data with
    | ok i => exact absurd hd (hbad i)
    | error e =>
      have hcw : BitVec.ofNat 16 (data.toNat % 65536) = BitVec.ofNat 16 data.toNat := by simp [← BitVec.toNat_inj]
      rw [step_of_write hp, hostWrite_cmd (s := { s with pending := rest }) data target_cmd hf,
        runCommand_of_illegal hd, hcw]
      rfl

/-- Settles O17: a word is a row's command exactly if it is that command's encoding, and the row's mask says which. -/
theorem opcodeRowsByMaskAndMatch : Obligations.OpcodeRowsByMaskAndMatch := by
  intro P cw
  simp only [decode_setWidth P.wordWide, decodeCmd_eq_ok]
  exact ⟨eq_scalarWord_iff, eq_scalarWord_iff, eq_scalarWord_iff, eq_scalarWord_iff, eq_scalarWord_iff,
    eq_scalarWord_iff, eq_scalarWord_iff, eq_scalarWord_iff, eq_scalarWord_iff,
    fun _ _ => eq_oneSourceWord_iff, fun _ _ => eq_oneSourceWord_iff,
    fun _ _ _ => eq_twoSourceWord_iff, fun _ _ _ => eq_twoSourceWord_iff, fun _ _ _ => eq_twoSourceWord_iff⟩

/-- Settles O19: the list of `LDSEQ` by induction, the other three rows term by term. -/
theorem pseudoInstructionExpansions : Obligations.PseudoInstructionExpansions := by
  intro P
  refine ⟨fun k v => ?_, fun k n => rfl, fun p n w => rfl, ?_⟩
  · rw [Line.assemble, loadFrom_eq_mapIdx]
    simp only [Nat.zero_add]
    rfl
  · rw [Line.assemble, writeTo, bitsW_one]
    rfl

end Sys2Proof.Machine

/-!
The modular arithmetic (40_modular_arithmetic.md): what the loops of `power_mod` (R84) and `inverse` (R86) compute, and
the commands TRUEMOD, MULMOD, POWMOD and INVMOD (R82, R83, R85, R87).
-/

namespace Sys2Proof.Machine

/-! ### Binary exponentiation (40_modular_arithmetic.md R84) -/

theorem mulmod_modEq (a b m : Int) : mulmod a b m ≡ a * b [ZMOD m] := by
  rw [mulmod_eq]
  exact Int.mod_modEq _ _

/-- The loop's invariant: running result times running square to the exponent left. The fuel is enough, since an
exponent that is not 0 falls when halved. -/
theorem powerLoop_modEq {m : Int} {fuel e : Nat} (he : e ≤ fuel) (r s : Int) :
    powerLoop m fuel e r s ≡ r * s ^ e [ZMOD m] := by
  induction fuel generalizing e r s with
  | zero =>
    obtain rfl : e = 0 := by omega
    simp [powerLoop]
  | succ fuel ih =>
    rw [powerLoop]
    split
    · next h0 => simp [h0]
    · have hsq : mulmod s s m ^ (e / 2) ≡ (s * s) ^ (e / 2) [ZMOD m] := (mulmod_modEq s s m).pow _
      refine (ih (by omega) _ _).trans ?_
      split
      · next hodd =>
        calc mulmod r s m * mulmod s s m ^ (e / 2)
            ≡ r * s * (s * s) ^ (e / 2) [ZMOD m] := (mulmod_modEq r s m).mul hsq
          _ = r * s ^ (2 * (e / 2) + 1) := by rw [← sq, ← pow_mul]; ring
          _ = r * s ^ e := by rw [show 2 * (e / 2) + 1 = e by omega]
      · next heven =>
        calc r * mulmod s s m ^ (e / 2)
            ≡ r * (s * s) ^ (e / 2) [ZMOD m] := hsq.mul_left r
          _ = r * s ^ (2 * (e / 2)) := by rw [← sq, ← pow_mul]
          _ = r * s ^ e := by rw [show 2 * (e / 2) = e by omega]

/-- R90 (a), for every base: the power, reduced. -/
theorem powerMod_eq {m : Int} (hm : 0 < m) (b : Int) (e : Nat) : powerMod b e m = b ^ e % m := by
  have hrange := powerMod_inField hm b e
  have hcong : powerMod b e m ≡ b ^ e [ZMOD m] :=
    calc powerMod b e m
        ≡ one m * trueMod b m ^ e [ZMOD m] := powerLoop_modEq le_rfl _ _
      _ ≡ 1 * b ^ e [ZMOD m] := (Int.mod_modEq 1 m).mul ((Int.mod_modEq b m).pow e)
      _ = b ^ e := one_mul _
  exact (Int.emod_eq_of_lt hrange.1 hrange.2).symm.trans hcong

/-! ### Extended Euclid (40_modular_arithmetic.md R86) -/

/-- The remainders keep their greatest common divisor. The fuel is enough, since `r1` falls at every iteration. -/
theorem euclidLoop_fst {fuel : Nat} {r0 r1 : Int} (h0 : 0 ≤ r0) (h1 : 0 ≤ r1) (hf : r1 ≤ fuel) (t0 t1 : Int) :
    (euclidLoop fuel r0 r1 t0 t1).1 = Int.gcd r0 r1 := by
  induction fuel generalizing r0 r1 t0 t1 with
  | zero =>
    obtain rfl : r1 = 0 := by push_cast at hf; omega
    simp [euclidLoop, abs_of_nonneg h0]
  | succ fuel ih =>
    rw [euclidLoop]
    split
    · next hz => simp [hz, abs_of_nonneg h0]
    · next hz =>
      have hrem : r0 - r0 / r1 * r1 = r0 % r1 := by rw [Int.emod_def, mul_comm]
      have hlt : r0 % r1 < r1 := Int.emod_lt_of_pos _ (by omega)
      rw [hrem, ih h1 (Int.emod_nonneg _ hz) (by push_cast at hf; omega), Int.gcd_comm, Int.gcd_emod]

/-- Each coefficient keeps giving its remainder: `v * t ≡ r`. -/
theorem euclidLoop_modEq {m v : Int} (fuel : Nat) {r0 r1 t0 t1 : Int} (h0 : v * t0 ≡ r0 [ZMOD m])
    (h1 : v * t1 ≡ r1 [ZMOD m]) :
    v * (euclidLoop fuel r0 r1 t0 t1).2 ≡ (euclidLoop fuel r0 r1 t0 t1).1 [ZMOD m] := by
  induction fuel generalizing r0 r1 t0 t1 with
  | zero => exact h0
  | succ fuel ih =>
    rw [euclidLoop]
    split
    · exact h0
    · refine ih h1 ?_
      calc v * (t0 - r0 / r1 * t1)
          = v * t0 - r0 / r1 * (v * t1) := by ring
        _ ≡ r0 - r0 / r1 * r1 [ZMOD m] := h0.sub (h1.mul_left _)

/-- The remainder the loop of `inverse` ends with. -/
theorem inverseLoop_fst {m : Int} (hm : 0 < m) (v : Int) :
    (euclidLoop m.toNat m (trueMod v m) 0 1).1 = Int.gcd (v % m) m := by
  have hv := trueMod_inField hm v
  rw [euclidLoop_fst hm.le hv.1 (by omega), Int.gcd_comm]
  rfl

/-- `inverse` answers exactly if the greatest common divisor is 1, and then the loop's last coefficient, reduced. -/
theorem inverse_eq {m : Int} (hm : 0 < m) (v : Int) :
    inverse v m = if Int.gcd (v % m) m = 1 then
      some (trueMod (euclidLoop m.toNat m (trueMod v m) 0 1).2 m) else none :=
  if_congr (by rw [inverseLoop_fst hm, Nat.cast_eq_one]) rfl rfl

theorem inverse_eq_none {m : Int} (hm : 0 < m) {v : Int} : inverse v m = none ↔ Int.gcd (v % m) m ≠ 1 := by
  simp [inverse_eq hm]

/-- What `inverse` answers is an inverse. -/
theorem mul_inverse {m v u : Int} (hm : 0 < m) (h : inverse v m = some u) : v * u % m = 1 % m := by
  have hstart : v * 1 ≡ trueMod v m [ZMOD m] := by rw [mul_one]; exact (Int.mod_modEq v m).symm
  rw [inverse_eq hm] at h
  obtain ⟨hgcd, rfl⟩ : _ ∧ _ = u := by simpa using h
  calc v * trueMod (euclidLoop m.toNat m (trueMod v m) 0 1).2 m
      ≡ v * (euclidLoop m.toNat m (trueMod v m) 0 1).2 [ZMOD m] := (Int.mod_modEq _ m).mul_left v
    _ ≡ (euclidLoop m.toNat m (trueMod v m) 0 1).1 [ZMOD m] :=
      euclidLoop_modEq _ (by simp [Int.ModEq]) hstart
    _ = 1 := by rw [inverseLoop_fst hm, hgcd, Nat.cast_one]

/-- R90 (b): where the greatest common divisor is 1 there is an inverse, in `[0, m)`. -/
theorem exists_inverse {m v : Int} (hm : 0 < m) (h : Int.gcd (v % m) m = 1) :
    ∃ u, inverse v m = some u ∧ 0 ≤ u ∧ u < m ∧ v * u % m = 1 % m := by
  obtain ⟨u, hu⟩ := Option.ne_none_iff_exists'.1 (mt (inverse_eq_none hm).1 (not_not.2 h))
  obtain ⟨h0, h1⟩ := inverse_inField hm hu
  exact ⟨u, hu, h0, h1, mul_inverse hm hu⟩

/-! ### A command's word and its two ends (30_encoding.md R64, R69) -/

variable {P : Params}

/-- A number is a command's word at every width if it is one on 16 bits. -/
theorem decode_ofNat_of_encode {n : Nat} {i : Instr} (hn : n < 65536) (h : BitVec.ofNat 16 n = encode i) :
    decode (BitVec.ofNat P.W n) = .ok i :=
  (decode_ofNat P.wordWide hn).trans (decodeCmd_eq_ok.2 h)

section Ends

variable {s t : StateAt P} {i : Instr} {r : Except CmdError (StateAt P)}

/-- A command whose checks and function give a state commits it. -/
theorem exec_of_ok (hrun : exec i ⟨P, s⟩ = .next ⟨P, s.finish i r⟩) (h : r = .ok t) :
    exec i ⟨P, s⟩ = .next ⟨P, t⟩ := by
  rw [hrun, StateAt.finish_eq.2 (.inl h)]

/-- A command whose checks and function give an error raises it with its own word. -/
theorem exec_of_error {e : CmdError} (hrun : exec i ⟨P, s⟩ = .next ⟨P, s.finish i r⟩) (h : r = .error e) :
    exec i ⟨P, s⟩ = .next ⟨P, s.afterFault e.code (encode i)⟩ := by
  rw [hrun, StateAt.finish_eq.2 (.inr ⟨e, h, rfl⟩)]
  rfl

end Ends

/-- Every command checks its modulus first. -/
theorem exec_checks_modulus (i : Instr) (s : StateAt P) :
    ∃ body, exec i ⟨P, s⟩ = .next ⟨P, s.finish i (s.modulus >>= body)⟩ := by
  cases i <;> exact ⟨_, rfl⟩

theorem exec_of_mod_nonpos {s : StateAt P} (i : Instr) (h : sint s.mod ≤ 0) :
    exec i ⟨P, s⟩ = .next ⟨P, s.afterFault 1 (encode i)⟩ := by
  obtain ⟨body, hrun⟩ := exec_checks_modulus i s
  exact exec_of_error hrun (bind_eq_error.2 (.inl (StateAt.modulus_eq_error.2 ⟨h, rfl⟩)))

theorem StateAt.modulus_of_pos {s : StateAt P} (h : 0 < sint s.mod) : s.modulus = .ok (sint s.mod) :=
  StateAt.modulus_eq_ok.2 ⟨h, rfl⟩

/-! ### The four commands with a positive modulus (40_modular_arithmetic.md R82, R83, R85, R87) -/

section Runs

variable (s : StateAt P)

theorem exec_trueMod : exec .trueMod ⟨P, s⟩ = .next ⟨P, s.finish .trueMod do
    let p ← s.modulus
    pure (s.setRes (trueMod (sint s.opa) p))⟩ := rfl

theorem exec_mulMod : exec .mulMod ⟨P, s⟩ = .next ⟨P, s.finish .mulMod do
    let p ← s.modulus
    pure (s.setRes (mulmod (sint s.opa) (sint s.opb) p))⟩ := rfl

theorem exec_powMod : exec .powMod ⟨P, s⟩ = .next ⟨P, s.finish .powMod do
    let p ← s.modulus
    require (decide (0 ≤ sint s.opb)) .preconditionViolated
    pure (s.setRes (powerMod (sint s.opa) (sint s.opb).toNat p))⟩ := rfl

theorem exec_invMod : exec .invMod ⟨P, s⟩ = .next ⟨P, s.finish .invMod do
    let p ← s.modulus
    let u ← orRaise .notInvertible (inverse (sint s.opa) p)
    pure (s.setRes u)⟩ := rfl

end Runs

section Positive

variable {s : StateAt P} (hm : 0 < sint s.mod)
include hm

theorem exec_trueMod_of_pos : exec .trueMod ⟨P, s⟩ = .next ⟨P, s.setRes (sint s.opa % sint s.mod)⟩ :=
  exec_of_ok (exec_trueMod s) (bind_eq_ok.2 ⟨_, StateAt.modulus_of_pos hm, rfl⟩)

theorem exec_mulMod_of_pos :
    exec .mulMod ⟨P, s⟩ = .next ⟨P, s.setRes (sint s.opa * sint s.opb % sint s.mod)⟩ := by
  rw [← mulmod_eq]
  exact exec_of_ok (exec_mulMod s) (bind_eq_ok.2 ⟨_, StateAt.modulus_of_pos hm, rfl⟩)

theorem exec_powMod_of_nonneg (he : 0 ≤ sint s.opb) :
    exec .powMod ⟨P, s⟩ = .next ⟨P, s.setRes (sint s.opa ^ (sint s.opb).toNat % sint s.mod)⟩ := by
  have hcheck : require (decide (0 ≤ sint s.opb)) .preconditionViolated = .ok () :=
    require_eq_ok.2 (decide_eq_true he)
  rw [← powerMod_eq hm]
  exact exec_of_ok (exec_powMod s)
    (bind_eq_ok.2 ⟨_, StateAt.modulus_of_pos hm, bind_eq_ok.2 ⟨_, hcheck, rfl⟩⟩)

theorem exec_powMod_of_neg (he : sint s.opb < 0) :
    exec .powMod ⟨P, s⟩ = .next ⟨P, s.afterFault 4 (encode .powMod)⟩ := by
  have hcheck : require (decide (0 ≤ sint s.opb)) .preconditionViolated = .error .preconditionViolated :=
    require_eq_error.2 ⟨decide_eq_false (not_le.2 he), rfl⟩
  exact exec_of_error (exec_powMod s)
    (bind_eq_error.2 (.inr ⟨_, StateAt.modulus_of_pos hm, bind_eq_error.2 (.inl hcheck)⟩))

theorem exec_invMod_of_some {u : Int} (hu : inverse (sint s.opa) (sint s.mod) = some u) :
    exec .invMod ⟨P, s⟩ = .next ⟨P, s.setRes u⟩ :=
  exec_of_ok (exec_invMod s)
    (bind_eq_ok.2 ⟨_, StateAt.modulus_of_pos hm, bind_eq_ok.2 ⟨u, orRaise_eq_ok.2 hu, rfl⟩⟩)

theorem exec_invMod_of_none (hu : inverse (sint s.opa) (sint s.mod) = none) :
    exec .invMod ⟨P, s⟩ = .next ⟨P, s.afterFault 2 (encode .invMod)⟩ :=
  exec_of_error (exec_invMod s) (bind_eq_error.2
    (.inr ⟨_, StateAt.modulus_of_pos hm, bind_eq_error.2 (.inl (orRaise_eq_error.2 ⟨hu, rfl⟩))⟩))

end Positive

end Sys2Proof.Machine

namespace Sys2Proof.Machine

/-! ### The statements settled -/

/-- Settles O42: the two loops' invariants for (a) and (b), the source's values by evaluation. -/
theorem powerAndInverseCorrect : Obligations.PowerAndInverseCorrect := by
  refine ⟨fun b e m _ hm => ?_, fun v m hm h => exists_inverse hm h, ?_⟩
  · rw [List.prod_replicate, powerMod_eq hm]
  · decide

/-- Settles O3: the power by `powerMod_eq`, the errors in the order of the checks. -/
theorem powModRule : Obligations.PowModRule := fun _ =>
  ⟨decode_ofNat_of_encode (by decide) rfl, fun _ hm he => exec_powMod_of_nonneg hm he,
    fun _ hm => exec_of_mod_nonpos .powMod hm, fun _ hm he => exec_powMod_of_neg hm he⟩

/-- Settles O4: there is an inverse exactly if the greatest common divisor is 1. -/
theorem invModRule : Obligations.InvModRule := by
  intro P
  refine ⟨decode_ofNat_of_encode (by decide) rfl, fun s hm hgcd => ?_,
    fun s hm => exec_of_mod_nonpos .invMod hm,
    fun s hm hgcd => exec_invMod_of_none hm ((inverse_eq_none hm).2 hgcd)⟩
  obtain ⟨u, hu, h0, h1, hinv⟩ := exists_inverse hm hgcd
  exact ⟨u, h0, h1, hinv, exec_invMod_of_some hm hu⟩

/-- Settles O1: the floor modulus behind the one check. -/
theorem trueModRule : Obligations.TrueModRule := fun _ =>
  ⟨decode_ofNat_of_encode (by decide) rfl, fun _ hm => exec_trueMod_of_pos hm,
    fun _ hm => exec_of_mod_nonpos .trueMod hm⟩

/-- Settles O2: normalizing the factors does not change the reduced product (`mulmod_eq`). -/
theorem mulModRule : Obligations.MulModRule := fun _ =>
  ⟨decode_ofNat_of_encode (by decide) rfl, fun _ hm => exec_mulMod_of_pos hm,
    fun _ hm => exec_of_mod_nonpos .mulMod hm⟩

end Sys2Proof.Machine

/-!
The root finder (41_root_finder.md): what the factor unit (R100), the generator test and scan (R101, R103), the root
(R105) and the order test (R107) compute, and the commands ISGEN, GEN, GETROOT and CHKROOT (R102, R104, R106, R108).
-/

namespace Sys2Proof.Machine

/-! ### The factor unit (41_root_finder.md R100) -/

theorem divideOut_pos {q fuel n : Nat} (hn : 1 ≤ n) : 1 ≤ divideOut q fuel n := by
  induction fuel generalizing n with
  | zero => exact hn
  | succ fuel ih =>
    rw [divideOut]
    split
    · next hd => exact ih (Nat.div_pos (Nat.le_of_dvd hn (Nat.dvd_of_mod_eq_zero hd))
        (Nat.pos_of_dvd_of_pos (Nat.dvd_of_mod_eq_zero hd) hn))
    · exact hn

theorem divideOut_le (q fuel n : Nat) : divideOut q fuel n ≤ n := by
  induction fuel generalizing n with
  | zero => exact le_rfl
  | succ fuel ih =>
    rw [divideOut]
    split
    · exact (ih _).trans (Nat.div_le_self _ _)
    · exact le_rfl

/-- Dividing `q` out takes `q` from the prime factors and no other. The fuel is enough, since a division by `q` makes
the number smaller. -/
theorem primeFactors_divideOut {q fuel n : Nat} (hq : q.Prime) (hn : 1 ≤ n) (hf : n ≤ fuel) :
    (divideOut q fuel n).primeFactors = n.primeFactors.erase q := by
  induction fuel generalizing n with
  | zero => omega
  | succ fuel ih =>
    rw [divideOut]
    split
    · next hd =>
      obtain ⟨k, rfl⟩ := Nat.dvd_of_mod_eq_zero hd
      have hk : 1 ≤ k := Nat.pos_of_mul_pos_left hn
      have hlt : k < q * k := (Nat.lt_mul_iff_one_lt_left hk).2 hq.one_lt
      rw [Nat.mul_div_cancel_left k hq.pos, ih hk (by omega), Nat.primeFactors_mul hq.ne_zero (by omega),
        hq.primeFactors, Finset.erase_union_distrib]
      simp
    · next hd =>
      exact (Finset.erase_eq_of_notMem fun h => hd (Nat.mod_eq_zero_of_dvd (Nat.dvd_of_mem_primeFactors h))).symm

/-- A divisor of at least 2 that no prime factor is below is prime. -/
theorem prime_of_dvd_of_least {q n : Nat} (hq : 2 ≤ q) (hd : q ∣ n) (hn : 1 ≤ n)
    (hleast : ∀ r ∈ n.primeFactors, q ≤ r) : q.Prime := by
  have hmem : q.minFac ∈ n.primeFactors :=
    Nat.mem_primeFactors.2 ⟨Nat.minFac_prime (by omega), q.minFac_dvd.trans hd, by omega⟩
  exact Nat.prime_def_minFac.2 ⟨hq, (Nat.minFac_le (by omega)).antisymm (hleast _ hmem)⟩

/-- Trial division may stop at the square root: what is left has no factor but itself. -/
theorem prime_of_lt_sq {q n : Nat} (hn : 1 < n) (hsq : n < q * q)
    (hleast : ∀ r ∈ n.primeFactors, q ≤ r) : n.Prime := by
  by_contra hc
  have hmem : q ≤ n.minFac :=
    hleast _ (Nat.mem_primeFactors.2 ⟨Nat.minFac_prime (by omega), n.minFac_dvd, by omega⟩)
  have hle : n.minFac ^ 2 ≤ n := Nat.minFac_sq_le_self (by omega) hc
  nlinarith

theorem sort_eq_cons_of_least {s : Finset Nat} {q : Nat} (hq : q ∈ s) (hleast : ∀ r ∈ s, q ≤ r) :
    s.sort = q :: (s.erase q).sort := by
  conv_lhs => rw [← Finset.insert_erase hq]
  exact Finset.sort_insert _ (fun r hr => hleast r (Finset.mem_of_mem_erase hr)) (Finset.notMem_erase q s)

/-- The trial division from `q` on appends the prime factors in rising order, where none is below `q`. The fuel is
enough, since the candidate rises towards the number. -/
theorem primesLoop_eq {fuel q n : Nat} (found : List Nat) (hq : 2 ≤ q) (hn : 1 ≤ n) (hf : n < q + fuel)
    (hleast : ∀ r ∈ n.primeFactors, q ≤ r) : primesLoop fuel q n found = found ++ n.primeFactors.sort := by
  induction fuel generalizing q n found with
  | zero =>
    obtain rfl : n = 1 := by
      by_contra hc
      have := hleast _ (Nat.mem_primeFactors.2 ⟨Nat.minFac_prime hc, n.minFac_dvd, by omega⟩)
      have := Nat.minFac_le hn
      omega
    simp [primesLoop]
  | succ fuel ih =>
    rw [primesLoop]
    split
    · split
      · next hd =>
        have hdvd : q ∣ n := Nat.dvd_of_mod_eq_zero hd
        have hprime := prime_of_dvd_of_least hq hdvd hn hleast
        have hrest := primeFactors_divideOut hprime hn le_rfl
        have hgt : ∀ r ∈ n.primeFactors.erase q, q < r := fun r hr =>
          (hleast r (Finset.mem_of_mem_erase hr)).lt_of_ne' (Finset.ne_of_mem_erase hr)
        have hle := divideOut_le q n n
        rw [ih _ (by omega) (divideOut_pos hn) (by omega) (by rwa [hrest]), hrest,
          sort_eq_cons_of_least (Nat.mem_primeFactors.2 ⟨hprime, hdvd, by omega⟩) hleast]
        simp
      · next hd =>
        refine ih _ (by omega) hn (by omega) fun r hr => lt_of_le_of_ne (hleast r hr) ?_
        rintro rfl
        exact hd (Nat.mod_eq_zero_of_dvd (Nat.dvd_of_mem_primeFactors hr))
    · next hsq =>
      split
      · next h1 => simp [(prime_of_lt_sq h1 (by omega) hleast).primeFactors]
      · obtain rfl : n = 1 := by omega
        simp

theorem primes_eq {n : Nat} (hn : 1 ≤ n) : primes n = n.primeFactors.sort :=
  primesLoop_eq [] le_rfl hn (by omega) fun _ hr => (Nat.prime_of_mem_primeFactors hr).two_le

theorem mem_primes {n q : Nat} (hn : 1 ≤ n) : q ∈ primes n ↔ q.Prime ∧ q ∣ n := by
  rw [primes_eq hn, Finset.mem_sort, Nat.mem_primeFactors_of_ne_zero (by omega)]

theorem two_le_of_prime {p : Int} (hprime : p.toNat.Prime) : 2 ≤ p := by
  have := hprime.two_le
  omega

/-! ### Exact order (41_root_finder.md R107) as the order of a residue -/

theorem pow_emod_eq_one_iff {p : Int} (hp : 0 < p) (w : Int) (k : Nat) :
    w ^ k % p = 1 % p ↔ (w : ZMod p.toNat) ^ k = 1 := by
  rw [← Int.cast_pow, ← Int.cast_one (R := ZMod p.toNat), ZMod.intCast_eq_intCast_iff', Int.toNat_of_nonneg hp.le]

theorem exactOrder_iff_orderOf {p : Int} (hp : 0 < p) (w : Int) {n : Nat} (hn : 1 ≤ n) :
    ExactOrder w n p ↔ orderOf (w : ZMod p.toNat) = n := by
  simp only [ExactOrder, ne_eq, pow_emod_eq_one_iff hp, orderOf_eq_iff hn]
  rfl

/-- The scan from the power `w^k` on finds whether the first power that is 1 is the last one it looks at. -/
theorem orderScan_eq_true {p : Int} (w : Int) (left k : Nat) :
    orderScan (trueMod w p) p left (w ^ k % p) = true ↔
      w ^ (k + left) % p = 1 % p ∧ ∀ j, j < k + left → k ≤ j → w ^ j % p ≠ 1 % p := by
  induction left generalizing k with
  | zero =>
    rw [orderScan, one, trueMod, decide_eq_true_eq]
    exact ⟨fun h => ⟨h, fun j _ _ => by omega⟩, And.left⟩
  | succ left ih =>
    have hnext : mulmod (w ^ k % p) (trueMod w p) p = w ^ (k + 1) % p := by
      simp [mulmod_eq, trueMod, pow_succ, Int.mul_emod]
    rw [orderScan, hnext]
    split
    · next h1 =>
      exact iff_of_false Bool.false_ne_true fun h => h.2 k (by omega) le_rfl h1
    · next h1 =>
      rw [ih, show k + 1 + left = k + (left + 1) by omega]
      refine and_congr_right fun _ => ⟨fun h j hj hk => ?_, fun h j hj hk => h j hj (by omega)⟩
      obtain rfl | hlt := hk.eq_or_lt
      · exact h1
      · exact h j hj hlt

theorem hasOrder_eq_true {p w : Int} {n : Nat} (hn : 1 ≤ n) : hasOrder w n p = true ↔ ExactOrder w n p := by
  have h := orderScan_eq_true (p := p) w (n - 1) 1
  rwa [pow_one, Nat.add_sub_cancel' hn] at h

/-! ### The generator test and scan (41_root_finder.md R101, R103) -/

/-- The test of R101, on residues: it is Lucas' criterion. -/
theorem isGenerator_iff_zmod {p : Int} (hp : 2 ≤ p) (g : Int) : isGenerator g p = true ↔
    (g : ZMod p.toNat) ^ (p - 1).toNat = 1 ∧
      ∀ q : Nat, q.Prime → q ∣ (p - 1).toNat → (g : ZMod p.toNat) ^ ((p - 1).toNat / q) ≠ 1 := by
  have hpow (k : Nat) : powerMod (trueMod g p) k p = 1 ↔ (g : ZMod p.toNat) ^ k = 1 := by
    rw [← pow_emod_eq_one_iff (by omega), powerMod_eq (by omega), Int.emod_eq_of_lt (a := 1) (by omega) (by omega),
      trueMod, (Int.mod_modEq g p).pow k]
  simp only [isGenerator, Bool.and_eq_true, List.all_eq_true, decide_eq_true_eq, ne_eq, hpow,
    mem_primes (n := (p - 1).toNat) (by omega), and_imp]

/-- The test answers whether the candidate has order `P - 1`. -/
theorem isGenerator_eq_true {p : Int} (hp : 2 ≤ p) {g : Int} :
    isGenerator g p = true ↔ ExactOrder g (p - 1).toNat p := by
  have hn : 1 ≤ (p - 1).toNat := by omega
  rw [isGenerator_iff_zmod hp, exactOrder_iff_orderOf (by omega) g hn]
  refine ⟨fun ⟨h1, hdiv⟩ => orderOf_eq_of_pow_and_pow_div_prime hn h1 hdiv,
    fun h => ⟨h ▸ pow_orderOf_eq_one _, fun q hq hd => ?_⟩⟩
  have hpos : 0 < (p - 1).toNat / q := Nat.div_pos (Nat.le_of_dvd hn hd) hq.pos
  exact pow_ne_one_of_lt_orderOf hpos.ne' ((Nat.div_lt_self hn hq.one_lt).trans_eq h.symm)

theorem isGenerator_eq_false {p : Int} (hp : 2 ≤ p) {g : Int} :
    isGenerator g p = false ↔ ¬ ExactOrder g (p - 1).toNat p := by
  rw [← isGenerator_eq_true hp, Bool.not_eq_true]

/-- Only a prime has a residue of order `P - 1`. -/
theorem prime_of_exactOrder {p g : Int} (hp : 2 ≤ p) (h : ExactOrder g (p - 1).toNat p) : p.toNat.Prime := by
  obtain ⟨h1, hdiv⟩ := (isGenerator_iff_zmod hp g).1 ((isGenerator_eq_true hp).2 h)
  rw [show (p - 1).toNat = p.toNat - 1 by omega] at h1 hdiv
  exact lucas_primality p.toNat g h1 hdiv

/-- A prime has a generator, and one among the candidates of the scan. -/
theorem exists_exactOrder {p : Int} (hp : 2 ≤ p) (hprime : p.toNat.Prime) :
    ∃ g, 1 ≤ g ∧ g ≤ p - 1 ∧ ExactOrder g (p - 1).toNat p := by
  obtain ⟨a, h1, hdiv⟩ := reverse_lucas_primality p.toNat hprime
  have : Fact p.toNat.Prime := ⟨hprime⟩
  rw [show p.toNat - 1 = (p - 1).toNat by omega] at h1 hdiv
  have hcast : ((a.val : Int) : ZMod p.toNat) = a := by simp
  have hpos : a.val ≠ 0 := by
    intro h0
    rw [(ZMod.val_eq_zero a).1 h0, zero_pow (by omega)] at h1
    exact zero_ne_one h1
  have hlt := a.val_lt
  refine ⟨a.val, by omega, by omega, ?_⟩
  rw [← isGenerator_eq_true hp, isGenerator_iff_zmod hp, hcast]
  exact ⟨h1, hdiv⟩

/-- The scan passes over a candidate only if it fails the test, whether it answers a later one or none. -/
theorem isGenerator_of_generatorScan_passes {p g c : Int} {fuel : Nat} (hg : g ≤ c) (hc : c < g + fuel)
    (hpass : ∀ v, generatorScan p fuel g = some v → c < v) : isGenerator c p = false := by
  induction fuel generalizing g with
  | zero => push_cast at hc; omega
  | succ fuel ih =>
    by_cases hgen : isGenerator g p = true
    · have := hpass g (by simp [generatorScan, hgen])
      omega
    · obtain rfl | hlt := hg.eq_or_lt
      · exact Bool.eq_false_iff.2 hgen
      · exact ih hlt (by push_cast at hc; omega) fun v hv => hpass v (by simpa [generatorScan, hgen] using hv)

theorem isGenerator_of_generator_passes {p c : Int} (h1 : 1 ≤ c) (hc : c < p)
    (hpass : ∀ v, generator p = some v → c < v) : isGenerator c p = false :=
  isGenerator_of_generatorScan_passes h1 (by omega) hpass

/-- R103: what the scan answers is the least generator. -/
theorem leastGenerator_of_generator {p g : Int} (hp : 2 ≤ p) (h : generator p = some g) : LeastGenerator g p := by
  obtain ⟨h1, hlt, hgen⟩ := generator_range (by omega) h
  refine ⟨h1, by omega, (isGenerator_eq_true hp).1 hgen, fun c hc hcg => (isGenerator_eq_false hp).1 ?_⟩
  exact isGenerator_of_generator_passes hc (by omega) (by simpa [h] using hcg)

/-- The scan ends without a generator exactly if the modulus is composite. -/
theorem generator_eq_none {p : Int} (hp : 2 ≤ p) : generator p = none ↔ ¬ p.toNat.Prime := by
  constructor
  · intro h hprime
    obtain ⟨g, h1, hle, hgen⟩ := exists_exactOrder hp hprime
    exact (isGenerator_eq_false hp).1 (isGenerator_of_generator_passes h1 (by omega) (by simp [h])) hgen
  · refine fun hcomposite => Option.eq_none_iff_forall_ne_some.2 fun g h => hcomposite ?_
    obtain ⟨_, _, hgen⟩ := generator_range (by omega) h
    exact prime_of_exactOrder hp ((isGenerator_eq_true hp).1 hgen)

theorem exists_generator {p : Int} (hp : 2 ≤ p) (hprime : p.toNat.Prime) : ∃ g, generator p = some g :=
  Option.ne_none_iff_exists'.1 (mt (generator_eq_none hp).1 (not_not.2 hprime))

/-! ### The root (41_root_finder.md R105) -/

theorem rootOfOrder_eq_some {p g : Int} (hp : 0 < p) (h : generator p = some g) (n : Nat) :
    rootOfOrder n p = some (g ^ ((p - 1).toNat / n) % p) := by
  rw [rootOfOrder, h, Option.map_some, powerMod_eq hp]

theorem rootOfOrder_eq_none {n : Nat} {p : Int} : rootOfOrder n p = none ↔ generator p = none :=
  Option.map_eq_none_iff

/-- Exact order is a property of the residue. -/
theorem exactOrder_emod {p w : Int} {n : Nat} : ExactOrder (w % p) n p ↔ ExactOrder w n p := by
  have hpow (k : Nat) : (w % p) ^ k % p = w ^ k % p := (Int.mod_modEq w p).pow k
  simp only [ExactOrder, hpow]

theorem toNat_ediv_of_nonneg {a b : Int} (ha : 0 ≤ a) (hb : 0 ≤ b) : (a / b).toNat = a.toNat / b.toNat := by
  lift a to Nat using ha
  lift b to Nat using hb
  rfl

theorem dvd_iff_toNat_dvd {a b : Int} (ha : 0 ≤ a) (hb : 0 ≤ b) : a ∣ b ↔ a.toNat ∣ b.toNat := by
  rw [← Int.natCast_dvd_natCast, Int.toNat_of_nonneg ha, Int.toNat_of_nonneg hb]

/-- R109 (a): a generator's power by `(P-1)/N` has exact order `N`. -/
theorem exactOrder_generator_pow {p l g : Int} (hp : 2 ≤ p) (hl : 1 ≤ l) (hd : l ∣ p - 1)
    (hg : ExactOrder g (p - 1).toNat p) : ExactOrder (g ^ ((p - 1) / l).toNat) l.toNat p := by
  have hp1 : 1 ≤ (p - 1).toNat := by omega
  have hn : 1 ≤ l.toNat := by omega
  rw [dvd_iff_toNat_dvd (by omega) (by omega)] at hd
  rw [toNat_ediv_of_nonneg (by omega) (by omega)]
  have hquot : (p - 1).toNat / l.toNat ≠ 0 := (Nat.div_pos (Nat.le_of_dvd hp1 hd) hn).ne'
  rw [exactOrder_iff_orderOf (by omega) _ hp1] at hg
  rw [exactOrder_iff_orderOf (by omega) _ hn, Int.cast_pow,
    orderOf_pow_of_dvd hquot (by rw [hg]; exact Nat.div_dvd_of_dvd hd), hg, Nat.div_div_self hd (by omega)]

/-! ### Checks the commands share (30_encoding.md R69; 41_root_finder.md R102, R104, R106, R108) -/

variable {P : Params}

/-- A truth value is the word 1 or the word 0 (10_state.md R23). -/
theorem setRes_truthBit (s : StateAt P) (b : Bool) : s.setRes (truthBit b) = { s with res := if b then 1 else 0 } := by
  cases b <;> simp [StateAt.setRes, truthBit, bitsW]

theorem StateAt.positiveLen_of_pos {s : StateAt P} (h : 1 ≤ sint s.len) : s.positiveLen = .ok (sint s.len).toNat :=
  StateAt.positiveLen_eq_ok.2 ⟨by omega, by omega⟩

section NotOne

variable {s : StateAt P} {i : Instr} {body : Int → Except CmdError (StateAt P)}
  (hrun : exec i ⟨P, s⟩ = .next ⟨P, s.finish i do
    let p ← s.modulus
    require (decide (p ≠ 1)) .preconditionViolated
    body p⟩)
include hrun

/-- The commands that need a modulus of at least 2 go on with it. -/
theorem exec_of_two_le (hm : 2 ≤ sint s.mod) : exec i ⟨P, s⟩ = .next ⟨P, s.finish i (body (sint s.mod))⟩ := by
  have hcheck : require (decide (sint s.mod ≠ 1)) .preconditionViolated = .ok () :=
    require_eq_ok.2 (decide_eq_true (by omega))
  rw [hrun, StateAt.modulus_of_pos (by omega)]
  simp only [bind, Except.bind, hcheck]

/-- The same commands fault on the modulus 1. -/
theorem exec_of_mod_one (hm : sint s.mod = 1) : exec i ⟨P, s⟩ = .next ⟨P, s.afterFault 4 (encode i)⟩ := by
  have hcheck : require (decide (sint s.mod ≠ 1)) .preconditionViolated = .error .preconditionViolated :=
    require_eq_error.2 ⟨decide_eq_false (by omega), rfl⟩
  exact exec_of_error hrun
    (bind_eq_error.2 (.inr ⟨_, StateAt.modulus_of_pos (by omega), bind_eq_error.2 (.inl hcheck)⟩))

end NotOne

/-! ### The four commands past their checks (41_root_finder.md R102, R104, R106, R108) -/

section Runs

variable (s : StateAt P)

theorem exec_isGen : exec .isGen ⟨P, s⟩ = .next ⟨P, s.finish .isGen do
    let p ← s.modulus
    require (decide (p ≠ 1)) .preconditionViolated
    pure (s.setRes (truthBit (isGenerator (sint s.opa) p)))⟩ := rfl

theorem exec_gen : exec .gen ⟨P, s⟩ = .next ⟨P, s.finish .gen do
    let p ← s.modulus
    require (decide (p ≠ 1)) .preconditionViolated
    let g ← orRaise .noGeneratorFound (generator p)
    pure (s.setRes g)⟩ := rfl

theorem exec_getRoot : exec .getRoot ⟨P, s⟩ = .next ⟨P, s.finish .getRoot do
    let p ← s.modulus
    require (decide (p ≠ 1)) .preconditionViolated
    let n ← s.positiveLen
    require (decide ((p - 1).toNat % n = 0)) .preconditionViolated
    let w ← orRaise .noGeneratorFound (rootOfOrder n p)
    pure ((s.setRes w).setRoot w)⟩ := rfl

theorem exec_chkRoot : exec .chkRoot ⟨P, s⟩ = .next ⟨P, s.finish .chkRoot do
    let p ← s.modulus
    let n ← s.positiveLen
    pure (s.setRes (truthBit (hasOrder (sint s.root) n p)))⟩ := rfl

end Runs

section TwoLe

variable {s : StateAt P} (hm : 2 ≤ sint s.mod)
include hm

theorem exec_isGen_of_two_le : exec .isGen ⟨P, s⟩ =
    .next ⟨P, { s with res := if isGenerator (sint s.opa) (sint s.mod) then 1 else 0 }⟩ := by
  rw [← setRes_truthBit]
  exact exec_of_two_le (exec_isGen s) hm

theorem exec_isGen_of_exactOrder (h : ExactOrder (sint s.opa) (sint s.mod - 1).toNat (sint s.mod)) :
    exec .isGen ⟨P, s⟩ = .next ⟨P, { s with res := 1 }⟩ := by
  rw [exec_isGen_of_two_le hm, if_pos ((isGenerator_eq_true hm).2 h)]

theorem exec_isGen_of_not_exactOrder (h : ¬ ExactOrder (sint s.opa) (sint s.mod - 1).toNat (sint s.mod)) :
    exec .isGen ⟨P, s⟩ = .next ⟨P, { s with res := 0 }⟩ := by
  rw [exec_isGen_of_two_le hm, if_neg (mt (isGenerator_eq_true hm).1 h)]

theorem exec_gen_of_some {g : Int} (h : generator (sint s.mod) = some g) :
    exec .gen ⟨P, s⟩ = .next ⟨P, s.setRes g⟩ :=
  exec_of_ok (exec_of_two_le (exec_gen s) hm) (bind_eq_ok.2 ⟨g, orRaise_eq_ok.2 h, rfl⟩)

theorem exec_gen_of_none (h : generator (sint s.mod) = none) :
    exec .gen ⟨P, s⟩ = .next ⟨P, s.afterFault 3 (encode .gen)⟩ :=
  exec_of_error (exec_of_two_le (exec_gen s) hm) (bind_eq_error.2 (.inl (orRaise_eq_error.2 ⟨h, rfl⟩)))

theorem exec_getRoot_of_len_lt (hl : sint s.len < 1) :
    exec .getRoot ⟨P, s⟩ = .next ⟨P, s.afterFault 4 (encode .getRoot)⟩ :=
  exec_of_error (exec_of_two_le (exec_getRoot s) hm)
    (bind_eq_error.2 (.inl (StateAt.positiveLen_eq_error.2 ⟨hl, rfl⟩)))

/-- GETROOT with both registers checked. -/
theorem exec_getRoot_of_len_pos (hl : 1 ≤ sint s.len) : exec .getRoot ⟨P, s⟩ = .next ⟨P, s.finish .getRoot do
    require (decide ((sint s.mod - 1).toNat % (sint s.len).toNat = 0)) .preconditionViolated
    let w ← orRaise .noGeneratorFound (rootOfOrder (sint s.len).toNat (sint s.mod))
    pure ((s.setRes w).setRoot w)⟩ := by
  rw [exec_of_two_le (exec_getRoot s) hm, StateAt.positiveLen_of_pos hl]
  rfl

theorem exec_getRoot_of_not_dvd (hl : 1 ≤ sint s.len) (hd : ¬ sint s.len ∣ sint s.mod - 1) :
    exec .getRoot ⟨P, s⟩ = .next ⟨P, s.afterFault 4 (encode .getRoot)⟩ := by
  rw [dvd_iff_toNat_dvd (by omega) (by omega), Nat.dvd_iff_mod_eq_zero] at hd
  exact exec_of_error (exec_getRoot_of_len_pos hm hl)
    (bind_eq_error.2 (.inl (require_eq_error.2 ⟨decide_eq_false hd, rfl⟩)))

/-- GETROOT with every check past: what is left is the root. -/
theorem exec_getRoot_of_dvd (hl : 1 ≤ sint s.len) (hd : sint s.len ∣ sint s.mod - 1) :
    exec .getRoot ⟨P, s⟩ = .next ⟨P, s.finish .getRoot do
      let w ← orRaise .noGeneratorFound (rootOfOrder (sint s.len).toNat (sint s.mod))
      pure ((s.setRes w).setRoot w)⟩ := by
  rw [dvd_iff_toNat_dvd (by omega) (by omega), Nat.dvd_iff_mod_eq_zero] at hd
  rw [exec_getRoot_of_len_pos hm hl, decide_eq_true hd]
  rfl

theorem exec_getRoot_of_none (hl : 1 ≤ sint s.len) (hd : sint s.len ∣ sint s.mod - 1)
    (h : generator (sint s.mod) = none) :
    exec .getRoot ⟨P, s⟩ = .next ⟨P, s.afterFault 3 (encode .getRoot)⟩ :=
  exec_of_error (exec_getRoot_of_dvd hm hl hd)
    (bind_eq_error.2 (.inl (orRaise_eq_error.2 ⟨rootOfOrder_eq_none.2 h, rfl⟩)))

theorem exec_getRoot_of_some (hl : 1 ≤ sint s.len) (hd : sint s.len ∣ sint s.mod - 1) {g : Int}
    (h : generator (sint s.mod) = some g) :
    exec .getRoot ⟨P, s⟩ = .next ⟨P,
      (s.setRes (g ^ ((sint s.mod - 1) / sint s.len).toNat % sint s.mod)).setRoot
        (g ^ ((sint s.mod - 1) / sint s.len).toNat % sint s.mod)⟩ := by
  rw [toNat_ediv_of_nonneg (a := sint s.mod - 1) (by omega) (by omega)]
  exact exec_of_ok (exec_getRoot_of_dvd hm hl hd)
    (bind_eq_ok.2 ⟨_, orRaise_eq_ok.2 (rootOfOrder_eq_some (by omega) h _), rfl⟩)

/-- R109 (a), read back from the register: the word GETROOT stores in `ROOT` has exact order `LEN`. -/
theorem exactOrder_sint_root (hl : 1 ≤ sint s.len) (hd : sint s.len ∣ sint s.mod - 1) {g : Int}
    (h : generator (sint s.mod) = some g) :
    ExactOrder (sint (bitsW (g ^ ((sint s.mod - 1) / sint s.len).toNat % sint s.mod) : Word P))
      (sint s.len).toNat (sint s.mod) := by
  obtain ⟨_, _, hgen⟩ := generator_range (by omega) h
  have hfield : InField (sint s.mod) (g ^ ((sint s.mod - 1) / sint s.len).toNat % sint s.mod) :=
    trueMod_inField (by omega) _
  rw [sint_bitsW hfield.1 (inField_fits hfield), exactOrder_emod]
  exact exactOrder_generator_pow hm hl hd ((isGenerator_eq_true hm).1 hgen)

end TwoLe

section ChkRoot

variable {s : StateAt P} (hm : 0 < sint s.mod)
include hm

theorem exec_chkRoot_of_len_lt (hl : sint s.len < 1) :
    exec .chkRoot ⟨P, s⟩ = .next ⟨P, s.afterFault 4 (encode .chkRoot)⟩ :=
  exec_of_error (exec_chkRoot s) (bind_eq_error.2
    (.inr ⟨_, StateAt.modulus_of_pos hm, bind_eq_error.2 (.inl (StateAt.positiveLen_eq_error.2 ⟨hl, rfl⟩))⟩))

theorem exec_chkRoot_of_len_pos (hl : 1 ≤ sint s.len) : exec .chkRoot ⟨P, s⟩ =
    .next ⟨P, { s with res := if hasOrder (sint s.root) (sint s.len).toNat (sint s.mod) then 1 else 0 }⟩ := by
  rw [← setRes_truthBit]
  exact exec_of_ok (exec_chkRoot s)
    (bind_eq_ok.2 ⟨_, StateAt.modulus_of_pos hm, bind_eq_ok.2 ⟨_, StateAt.positiveLen_of_pos hl, rfl⟩⟩)

theorem exec_chkRoot_of_exactOrder (hl : 1 ≤ sint s.len)
    (h : ExactOrder (sint s.root) (sint s.len).toNat (sint s.mod)) :
    exec .chkRoot ⟨P, s⟩ = .next ⟨P, { s with res := 1 }⟩ := by
  rw [exec_chkRoot_of_len_pos hm hl, if_pos ((hasOrder_eq_true (by omega)).2 h)]

theorem exec_chkRoot_of_not_exactOrder (hl : 1 ≤ sint s.len)
    (h : ¬ ExactOrder (sint s.root) (sint s.len).toNat (sint s.mod)) :
    exec .chkRoot ⟨P, s⟩ = .next ⟨P, { s with res := 0 }⟩ := by
  rw [exec_chkRoot_of_len_pos hm hl, if_neg (mt (hasOrder_eq_true (by omega)).1 h)]

end ChkRoot

end Sys2Proof.Machine

namespace Sys2Proof.Machine

/-! ### The statements settled -/

/-- Settles O43: the trial division gives the prime factors in rising order (`primes_eq`). -/
theorem primesAreThePrimeFactors : Obligations.PrimesAreThePrimeFactors := fun _ hn =>
  ⟨primes_eq hn ▸ Finset.sort_nodup _ _, fun _ => mem_primes hn⟩

/-- Settles O6: the test is Lucas' criterion, so no composite modulus passes it. -/
theorem isGenRule : Obligations.IsGenRule := fun _ =>
  ⟨decode_ofNat_of_encode (by decide) rfl, fun _ hm h => exec_isGen_of_exactOrder hm h,
    fun _ hm h => exec_isGen_of_not_exactOrder hm h,
    fun _ hm hc => exec_isGen_of_not_exactOrder hm (mt (prime_of_exactOrder hm) hc),
    fun _ hm => exec_of_mod_nonpos .isGen hm, fun s hm => exec_of_mod_one (exec_isGen s) hm⟩

/-- Settles O7: the scan ends without an answer exactly for a composite modulus (`generator_eq_none`). -/
theorem genRule : Obligations.GenRule := by
  intro P
  refine ⟨decode_ofNat_of_encode (by decide) rfl, fun s _ hprime => ?_, fun _ hm => exec_of_mod_nonpos .gen hm,
    fun s hm => exec_of_mod_one (exec_gen s) hm,
    fun s hm hc => exec_gen_of_none hm ((generator_eq_none hm).2 hc)⟩
  have hm : 2 ≤ sint s.mod := two_le_of_prime hprime
  obtain ⟨g, hg⟩ := exists_generator hm hprime
  exact ⟨g, leastGenerator_of_generator hm hg, exec_gen_of_some hm hg⟩

/-- Settles O8: the least generator's power, the errors in the order of the checks. -/
theorem getRootRule : Obligations.GetRootRule := by
  intro P
  refine ⟨decode_ofNat_of_encode (by decide) rfl, fun s _ hprime hl hd => ?_,
    fun _ hm => exec_of_mod_nonpos .getRoot hm, fun s hm => exec_of_mod_one (exec_getRoot s) hm,
    fun _ hm hl => exec_getRoot_of_len_lt hm hl, fun _ hm hl hd => exec_getRoot_of_not_dvd hm hl hd,
    fun s hm hl hd hc => exec_getRoot_of_none hm hl hd ((generator_eq_none hm).2 hc)⟩
  have hm : 2 ≤ sint s.mod := two_le_of_prime hprime
  obtain ⟨g, hg⟩ := exists_generator hm hprime
  exact ⟨g, leastGenerator_of_generator hm hg, exec_getRoot_of_some hm hl hd hg⟩

/-- Settles O9: the scan looks at every smaller power (`hasOrder_eq_true`). -/
theorem chkRootRule : Obligations.ChkRootRule := fun _ =>
  ⟨decode_ofNat_of_encode (by decide) rfl, fun _ hm hl h => exec_chkRoot_of_exactOrder hm hl h,
    fun _ hm hl h => exec_chkRoot_of_not_exactOrder hm hl h, fun _ hm => exec_of_mod_nonpos .chkRoot hm,
    fun _ hm hl => exec_chkRoot_of_len_lt hm hl⟩

/-- Settles O44: a generator's power by `(MOD - 1) / LEN` has order `LEN`, and GETROOT does not read what it writes. -/
theorem getRootGivesExactOrder : Obligations.GetRootGivesExactOrder := by
  intro P s hpos hprime hl hd
  have hm : 2 ≤ sint s.mod := two_le_of_prime hprime
  obtain ⟨g, hg⟩ := exists_generator hm hprime
  have horder := exactOrder_sint_root hm hl hd hg
  exact ⟨_, exec_getRoot_of_some hm hl hd hg, horder,
    exec_chkRoot_of_exactOrder (s := (s.setRes _).setRoot _) hpos hl horder,
    exec_getRoot_of_some (s := (s.setRes _).setRoot _) hm hl hd hg⟩

end Sys2Proof.Machine

/-!
The transform (42_transform.md): what its sum (R122), the engine's schedule (R127) and the inverse transform (R125)
compute, the round trip for a prime modulus (R128), and the commands BFLY, NTT and INTT (R121, R124, R126).
-/

namespace Sys2Proof.Machine

/-! ### The transform sum (42_transform.md R122) -/

/-- The sum of R122 over a sequence given by index, in any ring: over the integers it is what the block reduces, over
the residues of a prime it is inverted. -/
def transform {R : Type} [CommRing R] (n : Nat) (w : R) (x : Nat → R) (i : Nat) : R :=
  ∑ j ∈ Finset.range n, x j * w ^ (i * j)

theorem intCast_transform {R : Type} [CommRing R] (n : Nat) (w : Int) (x : Nat → Int) (i : Nat) :
    ((transform n w x i : Int) : R) = transform n (w : R) (fun j => (x j : R)) i := by
  simp [transform]

/-- One term of R122: the normalized element times the power, reduced or not. -/
theorem nttTerm_modEq {p : Int} (hp : 0 < p) (a w : Int) (e : Nat) :
    trueMod a p * powerMod w e p ≡ a * w ^ e [ZMOD p] := by
  rw [powerMod_eq hp]
  exact (Int.mod_modEq a p).mul (Int.mod_modEq (w ^ e) p)

theorem nttSum_modEq {p : Int} (hp : 0 < p) (w : Int) (i : Nat) (x : Nat → Int) (n j : Nat) :
    nttSum p w i j ((List.range' j n).map x) ≡ ∑ k ∈ Finset.range n, x (j + k) * w ^ (i * (j + k)) [ZMOD p] := by
  induction n generalizing j with
  | zero => rfl
  | succ n ih =>
    rw [List.range'_succ, List.map_cons, nttSum, Finset.sum_range_succ', add_comm]
    refine Int.ModEq.add ?_ (nttTerm_modEq hp (x j) w (i * j))
    simpa only [Nat.add_assoc, Nat.add_comm 1] using ih (j + 1)

/-- R122: the transform of a sequence given by index. -/
theorem nttSeq_eq {p : Int} (hp : 0 < p) (w : Int) (x : Nat → Int) (n : Nat) :
    nttSeq ((List.range n).map x) n p w = (List.range n).map fun i => transform n w x i % p := by
  refine List.map_congr_left fun i _ => ?_
  have hsum := nttSum_modEq hp w i x n 0
  simp only [Nat.zero_add, ← List.range_eq_range'] at hsum
  exact hsum

/-! ### The root enters by its residue alone -/

theorem powerMod_trueMod (w : Int) (e : Nat) (p : Int) : powerMod (trueMod w p) e p = powerMod w e p := by
  simp [powerMod, trueMod]

theorem nttSum_trueMod (p w : Int) (i j : Nat) (x : List Int) :
    nttSum p (trueMod w p) i j x = nttSum p w i j x := by
  induction x generalizing j with
  | nil => rfl
  | cons a x ih => rw [nttSum, nttSum, powerMod_trueMod, ih]

theorem nttSeq_trueMod (x : List Int) (n : Nat) (p w : Int) : nttSeq x n p (trueMod w p) = nttSeq x n p w := by
  simp only [nttSeq, nttSum_trueMod]

theorem inverse_trueMod (v p : Int) : inverse (trueMod v p) p = inverse v p := by
  rw [inverse, inverse, trueMod, trueMod, Int.emod_emod]

theorem invNttSeq_trueMod (x : List Int) (n : Nat) (p w : Int) :
    invNttSeq x n p (trueMod w p) = invNttSeq x n p w := by
  rw [invNttSeq, inverse_trueMod, invNttSeq]

/-! ### The engine's schedule (42_transform.md R127) -/

/-- One step of the engine for the output of twiddle `u`: accumulator and running twiddle. -/
def engineStep (p u : Int) (ct : Int × Int) (a : Int) : Int × Int :=
  (bflyCell ct.1 a ct.2 p, mulmod ct.2 u p)

/-- One element more: the accumulator takes its term, and the twiddle rises to the next power. -/
theorem engineStep_eq {p : Int} (hp : 0 < p) (w : Int) (i j : Nat) (c a : Int) :
    engineStep p (powerMod w i p) (c % p, w ^ (i * j) % p) a =
      ((c + trueMod a p * powerMod w (i * j) p) % p, w ^ (i * (j + 1)) % p) := by
  have hacc : (c % p + a * (w ^ (i * j) % p)) % p = (c + trueMod a p * powerMod w (i * j) p) % p :=
    (Int.mod_modEq c p).add
      (((Int.mod_modEq _ p).mul_left a).trans (nttTerm_modEq hp a w (i * j)).symm)
  have htwiddle : w ^ (i * j) % p * (w ^ i % p) % p = w ^ (i * (j + 1)) % p := by
    rw [← Int.mul_emod, ← pow_add, ← Nat.mul_succ]
  rw [engineStep, bflyCell_eq, mulmod_eq, hacc, powerMod_eq hp w i, htwiddle]

/-- The schedule's invariant: from the twiddle `w^(i*j)` on, the accumulator takes the rest of the sum. -/
theorem foldl_engineStep {p : Int} (hp : 0 < p) (w : Int) (i j : Nat) (c : Int) (x : List Int) :
    (x.foldl (engineStep p (powerMod w i p)) (c % p, w ^ (i * j) % p)).1 = (c + nttSum p w i j x) % p := by
  induction x generalizing c j with
  | nil => simp [nttSum]
  | cons a x ih => rw [List.foldl_cons, engineStep_eq hp, ih, nttSum, add_assoc]

/-! ### The inverse transform (42_transform.md R125) -/

theorem invNttSeq_of_inverses {p w wi ni : Int} {n : Nat} (x : List Int) (hw : inverse w p = some wi)
    (hn : inverse n p = some ni) :
    invNttSeq x n p w = some ((nttSeq x n p wi).map fun y => mulmod y ni p) := by
  rw [invNttSeq, hw, hn]

theorem invNttSeq_eq_none {p w : Int} {n : Nat} {x : List Int} :
    invNttSeq x n p w = none ↔ inverse w p = none ∨ inverse n p = none := by
  unfold invNttSeq
  cases inverse w p with
  | none => simp
  | some wi => cases inverse n p <;> simp

/-- R125: the inverse transform of a sequence given by index. -/
theorem invNttSeq_eq {p w wi ni : Int} {n : Nat} (hp : 0 < p) (x : Nat → Int) (hw : inverse w p = some wi)
    (hn : inverse n p = some ni) :
    invNttSeq ((List.range n).map x) n p w = some ((List.range n).map fun i => transform n wi x i * ni % p) := by
  rw [invNttSeq_of_inverses _ hw hn, nttSeq_eq hp, List.map_map]
  exact congrArg some (List.map_congr_left fun i _ => (mulmod_eq _ _ _).trans ((Int.mod_modEq _ p).mul_right ni))

/-- A number coprime to the modulus has the inverse the unit finds (40_modular_arithmetic.md R86). -/
theorem exists_inverse_of_coprime {m v : Int} (hm : 0 < m) (h : Int.gcd v m = 1) :
    ∃ u, inverse v m = some u ∧ v * u % m = 1 % m := by
  obtain ⟨u, hu, -, -, hmul⟩ := exists_inverse (v := v) hm (by rwa [Int.gcd_emod])
  exact ⟨u, hu, hmul⟩

theorem inverse_eq_none_of_not_coprime {m v : Int} (hm : 0 < m) (h : Int.gcd v m ≠ 1) : inverse v m = none :=
  (inverse_eq_none hm).2 (by rwa [Int.gcd_emod])

/-! ### The round trip (42_transform.md R128 (a)) -/

section RoundTrip

variable {R : Type} [CommRing R] [IsDomain R] {w wi : R} {n : Nat}

/-- The powers of `w^k / w^i` sum to 0 unless `i` and `k` are one index: otherwise it is a root of unity that is
not 1. -/
theorem sum_root_powers (hw : IsPrimitiveRoot w n) (hwi : w * wi = 1) {i k : Nat} (hi : i < n) (hk : k < n) :
    ∑ j ∈ Finset.range n, (w ^ k * wi ^ i) ^ j = if k = i then (n : R) else 0 := by
  have hcancel : w ^ i * wi ^ i = 1 := by rw [← mul_pow, hwi, one_pow]
  split
  · next h => simp [h, hcancel]
  · next h =>
    have hone : (w ^ k * wi ^ i) ^ n = 1 := by
      have hwin : wi ^ n = 1 := by simpa [mul_pow, hw.pow_eq_one] using congrArg (· ^ n) hwi
      rw [mul_pow, ← pow_mul, ← pow_mul, mul_comm k, mul_comm i, pow_mul, pow_mul, hw.pow_eq_one, hwin]
      simp
    have hne : w ^ k * wi ^ i - 1 ≠ 0 := fun hz => h <| hw.pow_inj hk hi <|
      calc w ^ k = w ^ i * (w ^ k * wi ^ i) := by rw [mul_left_comm, hcancel, mul_one]
        _ = w ^ i := by rw [sub_eq_zero.1 hz, mul_one]
    refine (mul_eq_zero.1 ?_).resolve_right hne
    rw [geom_sum_mul, hone, sub_self]

/-- The transform under the inverse root undoes the transform, up to the length. -/
theorem transform_transform (hw : IsPrimitiveRoot w n) (hwi : w * wi = 1) (x : Nat → R) {i : Nat} (hi : i < n) :
    transform n wi (transform n w x) i = x i * n :=
  calc transform n wi (transform n w x) i
      = ∑ k ∈ Finset.range n, x k * ∑ j ∈ Finset.range n, (w ^ k * wi ^ i) ^ j := by
        simp only [transform, Finset.sum_mul, Finset.mul_sum]
        rw [Finset.sum_comm]
        refine Finset.sum_congr rfl fun k _ => Finset.sum_congr rfl fun j _ => ?_
        rw [mul_pow, ← pow_mul, ← pow_mul, mul_comm j k, mul_assoc]
    _ = ∑ k ∈ Finset.range n, if k = i then x k * (n : R) else 0 := by
        refine Finset.sum_congr rfl fun k hk => ?_
        rw [sum_root_powers hw hwi hi (Finset.mem_range.1 hk), mul_ite, mul_zero]
    _ = x i * n := by simp [hi]

end RoundTrip

/-- A number that is not 0 modulo a prime is coprime to it. -/
theorem gcd_eq_one_of_cast_ne_zero {p v : Int} (hprime : p.toNat.Prime) (h : (v : ZMod p.toNat) ≠ 0) :
    Int.gcd v p = 1 := by
  have hp := two_le_of_prime hprime
  lift p to Nat using by omega
  rw [Int.toNat_natCast] at hprime h
  rw [Ne, ZMod.intCast_zmod_eq_zero_iff_dvd] at h
  exact Int.isCoprime_iff_gcd_eq_one.1
    ((Nat.prime_iff_prime_int.1 hprime).irreducible.coprime_iff_not_dvd.2 h).symm

section PrimeModulus

variable {p w : Int} {n : Nat} (hprime : p.toNat.Prime) (hn : 1 ≤ n) (hw : ExactOrder w n p)
include hprime hn hw

/-- A root of exact order is a primitive root of unity of the residue field. -/
theorem isPrimitiveRoot_of_exactOrder : IsPrimitiveRoot (w : ZMod p.toNat) n := by
  have hp := two_le_of_prime hprime
  exact (exactOrder_iff_orderOf (by omega) w hn).1 hw ▸ IsPrimitiveRoot.orderOf _

/-- The root and the length are coprime to a prime modulus, so both have inverses. -/
theorem gcd_root_length_of_prime : Int.gcd w p = 1 ∧ Int.gcd n p = 1 := by
  have hroot := isPrimitiveRoot_of_exactOrder hprime hn hw
  have := Fact.mk hprime
  have : NeZero n := ⟨by omega⟩
  have hlen : ((n : Int) : ZMod p.toNat) ≠ 0 := by
    rw [Int.cast_natCast]
    exact hroot.neZero'.ne
  exact ⟨gcd_eq_one_of_cast_ne_zero hprime (hroot.isUnit (by omega)).ne_zero,
    gcd_eq_one_of_cast_ne_zero hprime hlen⟩

/-- R128 (a), on integers: the inverse transform of the reduced transform is the sequence, reduced. -/
theorem transform_roundTrip {wi ni : Int} (hwi : w * wi % p = 1 % p) (hni : n * ni % p = 1 % p)
    (x : Nat → Int) {i : Nat} (hi : i < n) :
    transform n wi (fun j => transform n w x j % p) i * ni % p = x i % p := by
  have hroot := isPrimitiveRoot_of_exactOrder hprime hn hw
  have hp := two_le_of_prime hprime
  lift p to Nat using by omega
  rw [Int.toNat_natCast] at hprime hroot
  have := Fact.mk hprime
  rw [← ZMod.intCast_eq_intCast_iff'] at hwi hni ⊢
  push_cast at hwi hni
  simp only [Int.cast_mul, intCast_transform, ZMod.intCast_mod]
  rw [transform_transform hroot hwi _ hi, mul_assoc, hni, mul_one]

end PrimeModulus

variable {P : Params}

/-! ### Sequences by index, read and committed (20_memory.md R50, 10_state.md R24) -/

theorem StateAt.readSeq_eq_element (s : StateAt P) (k : BufId) (n : Nat) :
    s.readSeq k n = (List.range n).map (s.element k) := rfl

/-- A sequence committed by index is what the statements say of a destination. -/
theorem StateAt.writeSeq_commits (s : StateAt P) (k : BufId) (n : Nat) (v : Nat → Int) :
    CommitsSeq s (s.writeSeq k ((List.range n).map v)) k n v := by
  obtain ⟨hinside, houtside⟩ := s.writeSeq_spec k ((List.range n).map v)
  simp only [List.length_map, List.length_range, List.getElem_map, List.getElem_range] at hinside houtside
  exact ⟨rfl, hinside, houtside⟩

theorem StateAt.writeSeq_bufWord (s : StateAt P) (k : BufId) (v : Nat → Int) {n i : Nat} (hi : i < n) :
    (s.writeSeq k ((List.range n).map v)).bufWord k i = bitsW (v i) := by
  obtain ⟨-, hinside, -⟩ := s.writeSeq_commits k n v
  exact hinside i hi

/-- What a commit leaves in the destination is the sequence, whatever was there before and whichever buffer it is. -/
theorem StateAt.writeSeq_bufWord_congr (s s' : StateAt P) (k k' : BufId) {v : List Int} {i : Nat}
    (hi : i < v.length) : (s.writeSeq k v).bufWord k i = (s'.writeSeq k' v).bufWord k' i := by
  obtain ⟨hinside, -⟩ := s.writeSeq_spec k v
  obtain ⟨hinside', -⟩ := s'.writeSeq_spec k' v
  rw [hinside i hi, hinside' i hi]

/-- A committed sequence of field elements reads back as it is (40_modular_arithmetic.md R88). -/
theorem StateAt.readSeq_writeSeq (s : StateAt P) (k : BufId) (n : Nat) {v : Nat → Int}
    (hv : ∀ i, InField (sint s.mod) (v i)) :
    (s.writeSeq k ((List.range n).map v)).readSeq k n = (List.range n).map v := by
  refine List.map_congr_left fun i hi => ?_
  rw [s.writeSeq_bufWord k v (List.mem_range.1 hi), sint_bitsW (hv i).1 (inField_fits (hv i))]

/-! ### Checks the sequence commands share (30_encoding.md R70, 42_transform.md R123) -/

theorem StateAt.seqLen_of_range {s : StateAt P} (h1 : 1 ≤ sint s.len) (hmax : sint s.len ≤ P.NMAX) :
    s.seqLen = .ok (sint s.len).toNat :=
  StateAt.seqLen_eq_ok.2 ⟨by omega, by omega, by omega⟩

section Sequence

variable {s : StateAt P} {i : Instr} {body : Int → Nat → Except CmdError (StateAt P)}
  (hrun : exec i ⟨P, s⟩ = .next ⟨P, s.finish i do
    let p ← s.modulus
    let n ← s.seqLen
    body p n⟩)
  (hm : 0 < sint s.mod)
include hrun hm

/-- A sequence command with its modulus and its length checked. -/
theorem exec_of_seqLen {n : Nat} (hn : s.seqLen = .ok n) :
    exec i ⟨P, s⟩ = .next ⟨P, s.finish i (body (sint s.mod) n)⟩ := by
  rw [hrun, StateAt.modulus_of_pos hm, hn]
  rfl

theorem exec_of_len_outside (hl : sint s.len < 1 ∨ (P.NMAX : Int) < sint s.len) :
    exec i ⟨P, s⟩ = .next ⟨P, s.afterFault 4 (encode i)⟩ :=
  exec_of_error hrun (bind_eq_error.2 (.inr ⟨_, StateAt.modulus_of_pos hm,
    bind_eq_error.2 (.inl (StateAt.seqLen_eq_error.2 ⟨hl, rfl⟩))⟩))

end Sequence

/-- The registers a transform needs: a positive modulus, a length `n` the buffers hold, and a root of exact
order `n`. -/
structure StateAt.Rooted (s : StateAt P) (n : Nat) : Prop where
  mod_pos : 0 < sint s.mod
  len : s.seqLen = .ok n
  order : ExactOrder (sint s.root) n (sint s.mod)

theorem StateAt.Rooted.one_le {s : StateAt P} {n : Nat} (h : s.Rooted n) : 1 ≤ n :=
  (StateAt.seqLen_eq_ok.1 h.len).1

/-- No commit changes the three registers. -/
theorem StateAt.Rooted.writeSeq {s : StateAt P} {n : Nat} (h : s.Rooted n) (k : BufId) (v : List Int) :
    (s.writeSeq k v).Rooted n :=
  ⟨h.mod_pos, h.len, h.order⟩

/-- Nothing else is looked at. -/
theorem StateAt.Rooted.congr {s s' : StateAt P} {n : Nat} (hmod : s.mod = s'.mod) (hlen : s.len = s'.len)
    (hroot : s.root = s'.root) (h : s.Rooted n) : s'.Rooted n :=
  ⟨hmod ▸ h.mod_pos, StateAt.seqLen_eq_ok.2 (hlen ▸ StateAt.seqLen_eq_ok.1 h.len), hmod ▸ hroot ▸ h.order⟩

theorem StateAt.checkRoot_of_exactOrder {s : StateAt P} {n : Nat} {p : Int} (hn : 1 ≤ n)
    (h : ExactOrder (sint s.root) n p) : s.checkRoot n p = .ok () :=
  StateAt.checkRoot_eq_ok.2 ((hasOrder_eq_true hn).2 h)

theorem StateAt.checkRoot_of_not_exactOrder {s : StateAt P} {n : Nat} {p : Int} (hn : 1 ≤ n)
    (h : ¬ ExactOrder (sint s.root) n p) : s.checkRoot n p = .error .preconditionViolated :=
  StateAt.checkRoot_eq_error.2 ⟨Bool.eq_false_iff.2 (mt (hasOrder_eq_true hn).1 h), rfl⟩

section Root

variable {s : StateAt P} {i : Instr} {n : Nat} {body : Int → Nat → Except CmdError (StateAt P)}
  (hrun : exec i ⟨P, s⟩ = .next ⟨P, s.finish i do
    let p ← s.modulus
    let n ← s.seqLen
    s.checkRoot n p
    body p n⟩)
include hrun

/-- A transform command with its registers checked. -/
theorem exec_of_rooted (h : s.Rooted n) : exec i ⟨P, s⟩ = .next ⟨P, s.finish i (body (sint s.mod) n)⟩ := by
  rw [exec_of_seqLen hrun h.mod_pos h.len, StateAt.checkRoot_of_exactOrder h.one_le h.order]
  rfl

theorem exec_of_not_exactOrder (hm : 0 < sint s.mod) (hn : s.seqLen = .ok n)
    (h : ¬ ExactOrder (sint s.root) n (sint s.mod)) :
    exec i ⟨P, s⟩ = .next ⟨P, s.afterFault 4 (encode i)⟩ := by
  obtain ⟨h1, -⟩ := StateAt.seqLen_eq_ok.1 hn
  exact exec_of_error (exec_of_seqLen hrun hm hn)
    (bind_eq_error.2 (.inl (StateAt.checkRoot_of_not_exactOrder h1 h)))

/-- With any other registers a transform command faults. -/
theorem exec_of_not_rooted (h : ∀ n, ¬ s.Rooted n) :
    ∃ code, exec i ⟨P, s⟩ = .next ⟨P, s.afterFault code (encode i)⟩ := by
  by_cases hm : 0 < sint s.mod
  · by_cases hl : sint s.len < 1 ∨ (P.NMAX : Int) < sint s.len
    · exact ⟨4, exec_of_len_outside hrun hm hl⟩
    · have hn := StateAt.seqLen_of_range (s := s) (by omega) (by omega)
      exact ⟨4, exec_of_not_exactOrder hrun hm hn fun ho => h _ ⟨hm, hn, ho⟩⟩
  · exact ⟨1, exec_of_mod_nonpos i (by omega)⟩

end Root

/-! ### The three commands (42_transform.md R121, R124, R126) -/

section Runs

variable (s : StateAt P) (sd sa : BufId)

theorem exec_bfly : exec .bfly ⟨P, s⟩ = .next ⟨P, s.finish .bfly do
    let p ← s.modulus
    pure (s.setRes (bflyCell (sint s.opc) (sint s.opa) (sint s.opb) p))⟩ := rfl

theorem exec_ntt : exec (.ntt sd sa) ⟨P, s⟩ = .next ⟨P, s.finish (.ntt sd sa) do
    let p ← s.modulus
    let n ← s.seqLen
    s.checkRoot n p
    pure (s.writeSeq sd (nttSeq (s.readSeq sa n) n p (trueMod (sint s.root) p)))⟩ := rfl

theorem exec_intt : exec (.intt sd sa) ⟨P, s⟩ = .next ⟨P, s.finish (.intt sd sa) do
    let p ← s.modulus
    let n ← s.seqLen
    s.checkRoot n p
    let z ← orRaise .notInvertible (invNttSeq (s.readSeq sa n) n p (trueMod (sint s.root) p))
    pure (s.writeSeq sd z)⟩ := rfl

end Runs

theorem exec_bfly_of_pos {s : StateAt P} (hm : 0 < sint s.mod) :
    exec .bfly ⟨P, s⟩ = .next ⟨P, s.setRes ((sint s.opc + sint s.opa * sint s.opb) % sint s.mod)⟩ := by
  rw [← bflyCell_eq]
  exact exec_of_ok (exec_bfly s) (bind_eq_ok.2 ⟨_, StateAt.modulus_of_pos hm, rfl⟩)

section Rooted

variable {s : StateAt P} {n : Nat} (h : s.Rooted n) (sd sa : BufId)
include h

theorem exec_ntt_of_rooted : exec (.ntt sd sa) ⟨P, s⟩ = .next ⟨P,
    s.writeSeq sd (nttSeq (s.readSeq sa n) n (sint s.mod) (sint s.root))⟩ := by
  rw [← nttSeq_trueMod]
  exact exec_of_ok (exec_of_rooted (exec_ntt s sd sa) h) rfl

theorem exec_intt_of_some {z : List Int}
    (hz : invNttSeq (s.readSeq sa n) n (sint s.mod) (sint s.root) = some z) :
    exec (.intt sd sa) ⟨P, s⟩ = .next ⟨P, s.writeSeq sd z⟩ := by
  rw [← invNttSeq_trueMod] at hz
  exact exec_of_ok (exec_of_rooted (exec_intt s sd sa) h) (bind_eq_ok.2 ⟨z, orRaise_eq_ok.2 hz, rfl⟩)

theorem exec_intt_of_none (hz : invNttSeq (s.readSeq sa n) n (sint s.mod) (sint s.root) = none) :
    exec (.intt sd sa) ⟨P, s⟩ = .next ⟨P, s.afterFault 2 (encode (.intt sd sa))⟩ := by
  rw [← invNttSeq_trueMod] at hz
  exact exec_of_error (exec_of_rooted (exec_intt s sd sa) h)
    (bind_eq_error.2 (.inl (orRaise_eq_error.2 ⟨hz, rfl⟩)))

/-- NTT's commit, by index. -/
theorem exec_ntt_transform : exec (.ntt sd sa) ⟨P, s⟩ = .next ⟨P, s.writeSeq sd
    ((List.range n).map fun i => transform n (sint s.root) (s.element sa) i % sint s.mod)⟩ := by
  rw [exec_ntt_of_rooted h, StateAt.readSeq_eq_element, nttSeq_eq h.mod_pos]

/-- INTT's commit, by index, with the inverses the unit finds, where the root and the length are coprime to the
modulus. -/
theorem exec_intt_transform (hroot : Int.gcd (sint s.root) (sint s.mod) = 1) (hlen : Int.gcd n (sint s.mod) = 1)
    {x : Nat → Int} (hx : s.readSeq sa n = (List.range n).map x) :
    ∃ wi ni, sint s.root * wi % sint s.mod = 1 % sint s.mod ∧ n * ni % sint s.mod = 1 % sint s.mod ∧
      exec (.intt sd sa) ⟨P, s⟩ = .next ⟨P,
        s.writeSeq sd ((List.range n).map fun i => transform n wi x i * ni % sint s.mod)⟩ := by
  obtain ⟨wi, hwi, hmulw⟩ := exists_inverse_of_coprime h.mod_pos hroot
  obtain ⟨ni, hni, hmuln⟩ := exists_inverse_of_coprime h.mod_pos hlen
  refine ⟨wi, ni, hmulw, hmuln, exec_intt_of_some h sd sa ?_⟩
  rw [hx, invNttSeq_eq h.mod_pos x hwi hni]

theorem exec_intt_of_not_coprime (hg : Int.gcd (sint s.root) (sint s.mod) ≠ 1 ∨ Int.gcd n (sint s.mod) ≠ 1) :
    exec (.intt sd sa) ⟨P, s⟩ = .next ⟨P, s.afterFault 2 (encode (.intt sd sa))⟩ :=
  exec_intt_of_none h sd sa (invNttSeq_eq_none.2
    (hg.imp (inverse_eq_none_of_not_coprime h.mod_pos) (inverse_eq_none_of_not_coprime h.mod_pos)))

end Rooted

/-! ### Two commands in sequence, and on two states (42_transform.md R128) -/

/-- R128 (a): for a prime modulus INTT gives back what NTT transformed, reduced. -/
theorem exec_intt_after_ntt {s : StateAt P} {n : Nat} (h : s.Rooted n) (hprime : (sint s.mod).toNat.Prime)
    (sa sb sc : BufId) :
    ∃ t u : StateAt P, exec (.ntt sb sa) ⟨P, s⟩ = .next ⟨P, t⟩ ∧ exec (.intt sc sb) ⟨P, t⟩ = .next ⟨P, u⟩ ∧
      ∀ i, i < n → u.bufWord sc i = bitsW (s.element sa i % sint s.mod) := by
  obtain ⟨hroot, hlen⟩ := gcd_root_length_of_prime hprime h.one_le h.order
  have hread := s.readSeq_writeSeq sb n fun i => trueMod_inField h.mod_pos (transform n (sint s.root) (s.element sa) i)
  obtain ⟨wi, ni, hwi, hni, hintt⟩ := exec_intt_transform (h.writeSeq sb _) sc sb hroot hlen hread
  refine ⟨_, _, exec_ntt_transform h sb sa, hintt, fun i hi => ?_⟩
  rw [StateAt.writeSeq_bufWord _ _ _ hi]
  exact congrArg bitsW (transform_roundTrip hprime h.one_le h.order hwi hni _ hi)

/-- R128 (c): NTT reads three registers and the source, and nothing else decides what it writes or whether it
faults. -/
theorem exec_ntt_stateless {s s' t t' : StateAt P} {sa sa' sd sd' : BufId} (hmod : s.mod = s'.mod)
    (hlen : s.len = s'.len) (hroot : s.root = s'.root)
    (hsrc : ∀ j : Nat, (j : Int) < sint s.len → s.bufWord sa j = s'.bufWord sa' j)
    (hf : s.fault = false) (hf' : s'.fault = false)
    (ht : exec (.ntt sd sa) ⟨P, s⟩ = .next ⟨P, t⟩) (ht' : exec (.ntt sd' sa') ⟨P, s'⟩ = .next ⟨P, t'⟩) :
    t.fault = t'.fault ∧ (t.fault = false →
      ∀ i : Nat, (i : Int) < sint s.len → t.bufWord sd i = t'.bufWord sd' i) := by
  by_cases hrooted : ∃ n, s.Rooted n
  · obtain ⟨n, hr⟩ := hrooted
    obtain ⟨-, -, hn⟩ := StateAt.seqLen_eq_ok.1 hr.len
    have hread : s.readSeq sa n = s'.readSeq sa' n := List.map_congr_left fun j hj => by
      have hlt := List.mem_range.1 hj
      rw [hsrc j (by omega)]
    cases (exec_ntt_of_rooted hr sd sa).symm.trans ht
    cases (exec_ntt_of_rooted (hr.congr hmod hlen hroot) sd' sa').symm.trans ht'
    rw [hread, hmod, hroot]
    exact ⟨hf.trans hf'.symm, fun _ i hi => StateAt.writeSeq_bufWord_congr _ _ _ _ (by rw [nttSeq_length]; omega)⟩
  · have hnone : ∀ n, ¬ s.Rooted n := fun n h => hrooted ⟨n, h⟩
    obtain ⟨code, hfault⟩ := exec_of_not_rooted (exec_ntt s sd sa) hnone
    obtain ⟨code', hfault'⟩ := exec_of_not_rooted (exec_ntt s' sd' sa') fun n h =>
      hnone n (h.congr hmod.symm hlen.symm hroot.symm)
    cases hfault.symm.trans ht
    cases hfault'.symm.trans ht'
    exact ⟨rfl, nofun⟩

/-! ### The two commands' words (30_encoding.md R64) -/

/-- The words of NTT's row (30_encoding.md R64). -/
theorem nttWord_eq_encode (sd sa : BufId) :
    BitVec.ofNat 16 (sd.val * 4096 + sa.val * 256 + 0x10) = encode (.ntt sd sa) := by
  revert sd sa
  decide

/-- The words of INTT's row (30_encoding.md R64). -/
theorem inttWord_eq_encode (sd sa : BufId) :
    BitVec.ofNat 16 (sd.val * 4096 + sa.val * 256 + 0x11) = encode (.intt sd sa) := by
  revert sd sa
  decide

end Sys2Proof.Machine

namespace Sys2Proof.Machine

/-! ### The statements settled -/

/-- Settles O5: one reduced sum (`bflyCell_eq`) behind the one check. -/
theorem bflyRule : Obligations.BflyRule := fun _ =>
  ⟨decode_ofNat_of_encode (by decide) rfl, fun _ hm => exec_bfly_of_pos hm,
    fun _ hm => exec_of_mod_nonpos .bfly hm⟩

/-- Settles O45: the schedule's invariant, from the empty accumulator and the twiddle `w^0`. -/
theorem engineScheduleGivesNtt : Obligations.EngineScheduleGivesNtt := by
  intro x n p w hp
  refine List.map_congr_left fun i _ => ?_
  have hfold := foldl_engineStep hp w i 0 0 x
  rw [Int.zero_emod, Nat.mul_zero, pow_zero, zero_add] at hfold
  exact hfold.symm

/-- Settles O10: the transform of the source as it was, the errors in the order of the checks. -/
theorem nttRule : Obligations.NttRule := by
  intro P sd sa
  have hd := bufId_lt sd
  have ha := bufId_lt sa
  rw [nttWord_eq_encode]
  refine ⟨decode_ofNat_of_encode (by omega) (nttWord_eq_encode sd sa), fun s n hm hl h1 hmax ho => ?_,
    fun s hm => exec_of_mod_nonpos _ hm, fun s hm hl => exec_of_len_outside (exec_ntt s sd sa) hm hl,
    fun s hm h1 hmax ho =>
      exec_of_not_exactOrder (exec_ntt s sd sa) hm (StateAt.seqLen_of_range h1 hmax) ho⟩
  have hr : s.Rooted n := ⟨hm, StateAt.seqLen_eq_ok.2 ⟨h1, hmax, hl⟩, ho⟩
  exact ⟨_, exec_ntt_transform hr sd sa, s.writeSeq_commits sd n _⟩

/-- Settles O11: the inverse transform with the inverses the unit finds, the errors in the order of the checks. -/
theorem inttRule : Obligations.InttRule := by
  intro P sd sa
  have hd := bufId_lt sd
  have ha := bufId_lt sa
  rw [inttWord_eq_encode]
  refine ⟨decode_ofNat_of_encode (by omega) (inttWord_eq_encode sd sa),
    fun s n hm hl h1 hmax ho hroot hlen => ?_, fun s hm => exec_of_mod_nonpos _ hm,
    fun s hm hl => exec_of_len_outside (exec_intt s sd sa) hm hl,
    fun s hm h1 hmax ho =>
      exec_of_not_exactOrder (exec_intt s sd sa) hm (StateAt.seqLen_of_range h1 hmax) ho,
    fun s hm h1 hmax ho hg => ?_⟩
  · have hr : s.Rooted n := ⟨hm, StateAt.seqLen_eq_ok.2 ⟨h1, hmax, hl⟩, ho⟩
    obtain ⟨wi, ni, hmulw, hmuln, hrun⟩ := exec_intt_transform hr sd sa hroot hlen (s.readSeq_eq_element sa n)
    exact ⟨_, wi, ni, hmulw, hmuln, hrun, s.writeSeq_commits sd n _⟩
  · have hr : s.Rooted (sint s.len).toNat := ⟨hm, StateAt.seqLen_of_range h1 hmax, ho⟩
    have hcast : ((sint s.len).toNat : Int) = s.len.toInt := Int.toNat_of_nonneg (le_trans (by decide) h1)
    exact exec_intt_of_not_coprime hr sd sa (hcast ▸ hg)

/-- Settles O46: (a) the round trip on the residues of the prime, (b) by evaluation, (c) by the commit of NTT. -/
theorem nttRoundTrip : Obligations.NttRoundTrip := by
  intro P
  refine ⟨fun s sa sb sc n hm hprime hl h1 hmax ho => ?_, by decide,
    fun _ _ _ _ _ _ _ _ hmod hlen hroot hsrc hf hf' ht ht' =>
      exec_ntt_stateless hmod hlen hroot hsrc hf hf' ht ht'⟩
  have hr : s.Rooted n := ⟨hm, StateAt.seqLen_eq_ok.2 ⟨h1, hmax, hl⟩, ho⟩
  exact exec_intt_after_ntt hr hprime sa sb sc

end Sys2Proof.Machine

/-!
The convolution (43_convolution.md): what the pointwise product (R140), the convolution by transforms (R142) and the
convolution by its definition (R144) compute, why the last two agree for a prime modulus (R146), and the commands
PWMUL, CONV and CHKCONV (R141, R143, R145, R147).
-/

namespace Sys2Proof.Machine

/-! ### The cyclic convolution by its definition (43_convolution.md R144) -/

/-- The double sum of R144 for the output index `k`, before it is reduced. -/
def cyclicConv (n : Nat) (a b : Nat → Int) (k : Nat) : Int :=
  ∑ i ∈ Finset.range n, ∑ j ∈ Finset.range n, if (i + j) % n = k then a i * b j else 0

/-- One multiply-accumulate step of R144: the cell at its index takes the product, the others stay. -/
theorem modify_bflyCell (n : Nat) (p : Int) (c : Nat → Int) (q : Nat) (a b : Int) :
    ((List.range n).map fun k => c k % p).modify q (fun x => bflyCell x a b p) =
      (List.range n).map fun k => (c k + if q = k then a * b else 0) % p := by
  refine List.ext_getElem (by simp) fun k _ _ => ?_
  simp only [List.getElem_modify, List.getElem_map, List.getElem_range, bflyCell_eq]
  split <;> simp

/-- The inner loop of R144 adds to every cell the products of its index. -/
theorem convRow_eq (n : Nat) (p ai : Int) (i j m : Nat) (b c : Nat → Int) :
    convRow n p ai i j ((List.range m).map b) ((List.range n).map fun k => c k % p) =
      (List.range n).map fun k =>
        (c k + ∑ l ∈ Finset.range m, if (i + (j + l)) % n = k then ai * b l else 0) % p := by
  induction m generalizing j b c with
  | zero => simp [convRow]
  | succ m ih =>
    rw [List.range_succ_eq_map, List.map_cons, List.map_map, convRow, modify_bflyCell, ih]
    refine List.map_congr_left fun k _ => congrArg (· % p) ?_
    rw [Finset.sum_range_succ', add_assoc, add_comm (ite _ _ _)]
    simp only [Function.comp_apply, Nat.succ_eq_add_one, add_zero, Nat.add_right_comm j 1, Nat.add_assoc j]

/-- The outer loop of R144 adds to every cell the products of the rows from `i` on. -/
theorem convRows_eq (n : Nat) (p : Int) (b : Nat → Int) (i m : Nat) (a c : Nat → Int) :
    convRows n p ((List.range n).map b) i ((List.range m).map a) ((List.range n).map fun k => c k % p) =
      (List.range n).map fun k => (c k + ∑ l ∈ Finset.range m, ∑ j ∈ Finset.range n,
        if (i + l + j) % n = k then a l * b j else 0) % p := by
  induction m generalizing i a c with
  | zero => simp [convRows]
  | succ m ih =>
    rw [List.range_succ_eq_map, List.map_cons, List.map_map, convRows, convRow_eq, ih]
    refine List.map_congr_left fun k _ => congrArg (· % p) ?_
    rw [Finset.sum_range_succ', add_assoc, add_comm (Finset.sum _ _)]
    simp only [Function.comp_apply, Nat.succ_eq_add_one, add_zero, zero_add, Nat.add_right_comm i 1, Nat.add_assoc i]

/-- R144: the accumulation from 0 over both loops is the cyclic convolution, reduced. -/
theorem referenceConv_eq (n : Nat) (p : Int) (a b : Nat → Int) :
    referenceConv ((List.range n).map a) ((List.range n).map b) n p =
      (List.range n).map fun k => cyclicConv n a b k % p := by
  have hzero : List.replicate n (0 : Int) = (List.range n).map fun _ => 0 % p := by simp
  rw [referenceConv, hzero, convRows_eq]
  simp only [zero_add, cyclicConv]

/-! ### The convolution by transforms (43_convolution.md R140, R142) -/

/-- R140: the pointwise product of two sequences given by index. -/
theorem pointwise_eq (n : Nat) (p : Int) (x y : Nat → Int) :
    pointwise ((List.range n).map x) ((List.range n).map y) p = (List.range n).map fun i => x i * y i % p := by
  simp only [pointwise, List.zipWith_map, List.zipWith_self, mulmod_eq]

/-- The transform sum sees its elements by their residues alone. -/
theorem transform_modEq {p : Int} {n : Nat} {x y : Nat → Int} (h : ∀ j, x j ≡ y j [ZMOD p]) (w : Int) (i : Nat) :
    transform n w x i ≡ transform n w y i [ZMOD p] :=
  Int.ModEq.sum fun j _ => (h j).mul_right _

/-- R142: the convolution of two sequences given by index, with the inverses the unit finds. -/
theorem convolution_eq {p w wi ni : Int} {n : Nat} (hp : 0 < p) (a b : Nat → Int) (hw : inverse w p = some wi)
    (hn : inverse n p = some ni) :
    convolution ((List.range n).map a) ((List.range n).map b) n p w = some ((List.range n).map fun k =>
      transform n wi (fun i => transform n w a i * transform n w b i) k * ni % p) := by
  rw [convolution, nttSeq_eq hp, nttSeq_eq hp, pointwise_eq, invNttSeq_eq hp _ hw hn]
  refine congrArg some (List.map_congr_left fun k _ => Int.ModEq.mul_right ni (transform_modEq (fun i => ?_) wi k))
  exact (Int.mod_modEq _ p).trans ((Int.mod_modEq _ p).mul (Int.mod_modEq _ p))

theorem convolution_eq_none {a b : List Int} {n : Nat} {p w : Int} :
    convolution a b n p w = none ↔ inverse w p = none ∨ inverse n p = none := invNttSeq_eq_none

theorem convolution_trueMod (a b : List Int) (n : Nat) (p w : Int) :
    convolution a b n p (trueMod w p) = convolution a b n p w := by
  rw [convolution, nttSeq_trueMod, nttSeq_trueMod, invNttSeq_trueMod, convolution]

/-! ### The convolution theorem (43_convolution.md R146 (a)) -/

/-- The powers of a root whose `n`-th power is 1 go round with period `n`. -/
theorem pow_mod_modEq {p w : Int} {n : Nat} (hw : w ^ n % p = 1 % p) (q : Nat) : w ^ (q % n) ≡ w ^ q [ZMOD p] := by
  have hround : (w ^ n) ^ (q / n) ≡ 1 [ZMOD p] := by simpa using Int.ModEq.pow (q / n) hw
  have hsplit : w ^ (q % n) * (w ^ n) ^ (q / n) = w ^ q := by rw [← pow_mul, ← pow_add, Nat.mod_add_div]
  simpa [hsplit] using (hround.mul_left (w ^ (q % n))).symm

/-- The transform of a cyclic convolution is the product of the transforms: every product `a l * b m` meets the power
`w^(i * (l + m))`, whether or not its index went round. -/
theorem transform_cyclicConv {p w : Int} {n : Nat} (hw : w ^ n % p = 1 % p) (a b : Nat → Int) (i : Nat) :
    transform n w (cyclicConv n a b) i ≡ transform n w a i * transform n w b i [ZMOD p] := by
  have hcollect : transform n w (cyclicConv n a b) i =
      ∑ l ∈ Finset.range n, ∑ m ∈ Finset.range n, a l * b m * (w ^ ((l + m) % n)) ^ i := by
    simp only [transform, cyclicConv, Finset.sum_mul]
    rw [Finset.sum_comm]
    refine Finset.sum_congr rfl fun l hl => ?_
    rw [Finset.sum_comm]
    refine Finset.sum_congr rfl fun m _ => ?_
    have hin : (l + m) % n < n := Nat.mod_lt _ (by have := Finset.mem_range.1 hl; omega)
    simp only [ite_mul, zero_mul, Finset.sum_ite_eq, Finset.mem_range, hin, if_true, mul_comm i, pow_mul]
  rw [hcollect, transform, transform, Finset.sum_mul_sum]
  refine Int.ModEq.sum fun l _ => Int.ModEq.sum fun m _ => ?_
  calc a l * b m * (w ^ ((l + m) % n)) ^ i
      ≡ a l * b m * (w ^ (l + m)) ^ i [ZMOD p] := ((pow_mod_modEq hw (l + m)).pow i).mul_left _
    _ = a l * w ^ (i * l) * (b m * w ^ (i * m)) := by ring

/-- R146 (a), on integers: for a prime modulus the convolution by transforms is the convolution by its definition. -/
theorem convolution_theorem {p w wi ni : Int} {n : Nat} (hprime : p.toNat.Prime) (hn : 1 ≤ n)
    (hw : ExactOrder w n p) (hwi : w * wi % p = 1 % p) (hni : n * ni % p = 1 % p) (a b : Nat → Int) {k : Nat}
    (hk : k < n) :
    transform n wi (fun i => transform n w a i * transform n w b i) k * ni % p = cyclicConv n a b k % p := by
  have hround : w ^ n % p = 1 % p := hw.1
  have hproduct : transform n wi (fun i => transform n w a i * transform n w b i) k ≡
      transform n wi (fun i => transform n w (cyclicConv n a b) i % p) k [ZMOD p] :=
    transform_modEq (fun i => ((Int.mod_modEq _ p).trans (transform_cyclicConv hround a b i)).symm) wi k
  exact (hproduct.mul_right ni).trans (transform_roundTrip hprime hn hw hwi hni (cyclicConv n a b) hk)

/-! ### Sequences of field elements (40_modular_arithmetic.md R88) -/

theorem nttSeq_inField {p : Int} (hp : 0 < p) (x : List Int) (n : Nat) (w : Int) :
    ∀ v ∈ nttSeq x n p w, InField p v :=
  List.forall_mem_map.2 fun _ _ => trueMod_inField hp _

theorem pointwise_inField {p : Int} (hp : 0 < p) (x y : List Int) : ∀ v ∈ pointwise x y p, InField p v := by
  intro v hv
  obtain ⟨i, hi, rfl⟩ := List.getElem_of_mem hv
  simp only [pointwise, List.getElem_zipWith]
  exact mulmod_inField hp _ _

variable {P : Params}

/-- A committed sequence of field elements reads back as it is, whatever its form. -/
theorem StateAt.readSeq_writeSeq_self (s : StateAt P) (k : BufId) {n : Nat} {v : List Int} (hn : v.length = n)
    (hv : ∀ u ∈ v, InField (sint s.mod) u) : (s.writeSeq k v).readSeq k n = v := by
  obtain ⟨hinside, -⟩ := s.writeSeq_spec k v
  refine List.ext_getElem (by simp [hn]) fun i _ hi => ?_
  have hfield := hv v[i] (List.getElem_mem hi)
  rw [StateAt.readSeq_getElem, hinside i hi, sint_bitsW hfield.1 (inField_fits hfield)]

/-- A commit leaves the sources in other buffers as they were (20_memory.md R43). -/
theorem StateAt.readSeq_writeSeq_of_ne (s : StateAt P) {k k' : BufId} (h : k ≠ k') {n : Nat} (hn : n ≤ P.NMAX)
    {v : List Int} (hv : v.length ≤ P.NMAX) : (s.writeSeq k v).readSeq k' n = s.readSeq k' n := by
  obtain ⟨-, houtside⟩ := s.writeSeq_spec k v
  refine List.map_congr_left fun i hi => congrArg sint (houtside _ fun j hj heq => ?_)
  have hi' : i < n := List.mem_range.1 hi
  obtain ⟨hk, -⟩ := (bufAddr_inj (by omega) (by omega)).1 heq
  exact h hk.symm

/-! ### The three commands (43_convolution.md R141, R143, R145) -/

/-- The words of the two-source rows (30_encoding.md R64). -/
theorem twoSourceWord_eq_layout (sd sa sb : BufId) {op : Nat} (hop : op < 256) :
    BitVec.ofNat 16 (sd.val * 4096 + sb.val * 1024 + sa.val * 256 + op) =
      layout (selector sd) (selector sb) (selector sa) (.ofNat 8 op) := by
  have hd := bufId_lt sd
  have ha := bufId_lt sa
  have hb := bufId_lt sb
  rw [layout_eq_fields, ← BitVec.toNat_inj, fields_toNat, BitVec.toNat_ofNat, BitVec.toNat_ofNat]
  change _ = 0 * 16384 + sd.val * 4096 + sb.val * 1024 + sa.val * 256 + op % 256
  omega

/-- The word of a two-source row decodes to its command. -/
theorem decode_twoSourceWord {i : Instr} (sd sa sb : BufId) {op : Nat} (hop : op < 256)
    (h : encode i = layout (selector sd) (selector sb) (selector sa) (.ofNat 8 op)) :
    decode (BitVec.ofNat P.W (sd.val * 4096 + sb.val * 1024 + sa.val * 256 + op)) = .ok i := by
  have hd := bufId_lt sd
  have ha := bufId_lt sa
  have hb := bufId_lt sb
  exact decode_ofNat_of_encode (by omega) ((twoSourceWord_eq_layout sd sa sb hop).trans h.symm)

section Runs

variable (s : StateAt P) (sd sa sb : BufId)

theorem exec_pwMul : exec (.pwMul sd sa sb) ⟨P, s⟩ = .next ⟨P, s.finish (.pwMul sd sa sb) do
    let p ← s.modulus
    let n ← s.seqLen
    pure (s.writeSeq sd (pointwise (s.readSeq sa n) (s.readSeq sb n) p))⟩ := rfl

theorem exec_conv : exec (.conv sd sa sb) ⟨P, s⟩ = .next ⟨P, s.finish (.conv sd sa sb) do
    let p ← s.modulus
    let n ← s.seqLen
    s.checkRoot n p
    let d ← orRaise .notInvertible
      (convolution (s.readSeq sa n) (s.readSeq sb n) n p (trueMod (sint s.root) p))
    pure (s.writeSeq sd d)⟩ := rfl

theorem exec_chkConv : exec (.chkConv sd sa sb) ⟨P, s⟩ = .next ⟨P, s.finish (.chkConv sd sa sb) do
    let p ← s.modulus
    let n ← s.seqLen
    pure (s.writeSeq sd (referenceConv (s.readSeq sa n) (s.readSeq sb n) n p))⟩ := rfl

end Runs

section Checked

variable {s : StateAt P} {n : Nat} (hm : 0 < sint s.mod) (hn : s.seqLen = .ok n) (sd sa sb : BufId)
include hm hn

theorem exec_pwMul_of_seqLen : exec (.pwMul sd sa sb) ⟨P, s⟩ = .next ⟨P,
    s.writeSeq sd (pointwise (s.readSeq sa n) (s.readSeq sb n) (sint s.mod))⟩ :=
  exec_of_ok (exec_of_seqLen (exec_pwMul s sd sa sb) hm hn) rfl

/-- PWMUL's commit, by index. -/
theorem exec_pwMul_products : exec (.pwMul sd sa sb) ⟨P, s⟩ = .next ⟨P, s.writeSeq sd
    ((List.range n).map fun i => s.element sa i * s.element sb i % sint s.mod)⟩ := by
  rw [exec_pwMul_of_seqLen hm hn, StateAt.readSeq_eq_element, StateAt.readSeq_eq_element, pointwise_eq]

/-- CHKCONV's commit, by index. -/
theorem exec_chkConv_cyclicConv : exec (.chkConv sd sa sb) ⟨P, s⟩ = .next ⟨P, s.writeSeq sd
    ((List.range n).map fun k => cyclicConv n (s.element sa) (s.element sb) k % sint s.mod)⟩ := by
  rw [← referenceConv_eq, ← StateAt.readSeq_eq_element, ← StateAt.readSeq_eq_element]
  exact exec_of_ok (exec_of_seqLen (exec_chkConv s sd sa sb) hm hn) rfl

end Checked

section Rooted

variable {s : StateAt P} {n : Nat} (h : s.Rooted n) (sd sa sb : BufId)
include h

theorem exec_conv_of_some {z : List Int}
    (hz : convolution (s.readSeq sa n) (s.readSeq sb n) n (sint s.mod) (sint s.root) = some z) :
    exec (.conv sd sa sb) ⟨P, s⟩ = .next ⟨P, s.writeSeq sd z⟩ := by
  rw [← convolution_trueMod] at hz
  exact exec_of_ok (exec_of_rooted (exec_conv s sd sa sb) h) (bind_eq_ok.2 ⟨z, orRaise_eq_ok.2 hz, rfl⟩)

theorem exec_conv_of_none
    (hz : convolution (s.readSeq sa n) (s.readSeq sb n) n (sint s.mod) (sint s.root) = none) :
    exec (.conv sd sa sb) ⟨P, s⟩ = .next ⟨P, s.afterFault 2 (encode (.conv sd sa sb))⟩ := by
  rw [← convolution_trueMod] at hz
  exact exec_of_error (exec_of_rooted (exec_conv s sd sa sb) h)
    (bind_eq_error.2 (.inl (orRaise_eq_error.2 ⟨hz, rfl⟩)))

/-- CONV's commit, by index, with the inverses the unit finds, where the root and the length are coprime to the
modulus. -/
theorem exec_conv_transform (hroot : Int.gcd (sint s.root) (sint s.mod) = 1) (hlen : Int.gcd n (sint s.mod) = 1) :
    ∃ wi ni, sint s.root * wi % sint s.mod = 1 % sint s.mod ∧ n * ni % sint s.mod = 1 % sint s.mod ∧
      exec (.conv sd sa sb) ⟨P, s⟩ = .next ⟨P, s.writeSeq sd ((List.range n).map fun k =>
        transform n wi (fun i => transform n (sint s.root) (s.element sa) i *
          transform n (sint s.root) (s.element sb) i) k * ni % sint s.mod)⟩ := by
  obtain ⟨wi, hwi, hmulw⟩ := exists_inverse_of_coprime h.mod_pos hroot
  obtain ⟨ni, hni, hmuln⟩ := exists_inverse_of_coprime h.mod_pos hlen
  refine ⟨wi, ni, hmulw, hmuln, exec_conv_of_some h sd sa sb ?_⟩
  rw [StateAt.readSeq_eq_element, StateAt.readSeq_eq_element, convolution_eq h.mod_pos _ _ hwi hni]

theorem exec_conv_of_not_coprime (hg : Int.gcd (sint s.root) (sint s.mod) ≠ 1 ∨ Int.gcd n (sint s.mod) ≠ 1) :
    exec (.conv sd sa sb) ⟨P, s⟩ = .next ⟨P, s.afterFault 2 (encode (.conv sd sa sb))⟩ :=
  exec_conv_of_none h sd sa sb (convolution_eq_none.2
    (hg.imp (inverse_eq_none_of_not_coprime h.mod_pos) (inverse_eq_none_of_not_coprime h.mod_pos)))

end Rooted

/-! ### CONV against CHKCONV (43_convolution.md R146) -/

/-- R146 (a): for a prime modulus both commands answer and commit one sequence. -/
theorem exec_conv_chkConv {s : StateAt P} {n : Nat} (h : s.Rooted n) (hprime : (sint s.mod).toNat.Prime)
    (sd sd' sa sb : BufId) :
    ∃ v : List Int, v.length = n ∧ exec (.conv sd sa sb) ⟨P, s⟩ = .next ⟨P, s.writeSeq sd v⟩ ∧
      exec (.chkConv sd' sa sb) ⟨P, s⟩ = .next ⟨P, s.writeSeq sd' v⟩ := by
  obtain ⟨hroot, hlen⟩ := gcd_root_length_of_prime hprime h.one_le h.order
  obtain ⟨wi, ni, hwi, hni, hconv⟩ := exec_conv_transform h sd sa sb hroot hlen
  refine ⟨_, by simp, ?_, exec_chkConv_cyclicConv h.mod_pos h.len sd' sa sb⟩
  rw [hconv, List.map_congr_left fun k hk =>
    convolution_theorem hprime h.one_le h.order hwi hni _ _ (List.mem_range.1 hk)]

/-- A root that is 1 modulo `p` has exact order 1. -/
theorem exactOrder_one {w p : Int} (h : w % p = 1 % p) : ExactOrder w 1 p :=
  ⟨by rwa [pow_one], fun k hlt hge => by omega⟩

/-- R146 (b): with one element every sum is one term, and the inverse of the length 1 is 1. -/
theorem exec_conv_of_len_one {s : StateAt P} (h : s.Rooted 1) (sd sa sb : BufId)
    (hroot : sint s.root % sint s.mod = 1 % sint s.mod) :
    exec (.conv sd sa sb) ⟨P, s⟩ =
      .next ⟨P, s.writeSeq sd ((List.range 1).map fun _ => s.element sa 0 * s.element sb 0 % sint s.mod)⟩ := by
  have hcoprime : Int.gcd (sint s.root) (sint s.mod) = 1 := by
    rw [← Int.gcd_emod, hroot, Int.gcd_emod, Int.one_gcd]
  obtain ⟨wi, ni, -, hni, hconv⟩ := exec_conv_transform h sd sa sb hcoprime Int.one_gcd
  have hscale (v : Int) : v * ni % sint s.mod = v % sint s.mod := by
    rw [Nat.cast_one, one_mul] at hni
    rw [Int.mul_emod, hni, ← Int.mul_emod, mul_one]
  rw [hconv]
  simp [transform, hscale]

/-! ### CONV against the four commands (43_convolution.md R147) -/

/-- R147: the first three commands change buffer words alone and leave in `x` what CONV inverts, where the spare
buffers `x` and `y` are two and `x` is not the second source. -/
theorem exec_ntt_ntt_pwMul {s : StateAt P} {n : Nat} (h : s.Rooted n) {a b x y : BufId} (hxy : x ≠ y) (hxb : x ≠ b) :
    ∃ (t₁ t₂ : StateAt P) (m : Memory P), exec (.ntt x a) ⟨P, s⟩ = .next ⟨P, t₁⟩ ∧
      exec (.ntt y b) ⟨P, t₁⟩ = .next ⟨P, t₂⟩ ∧ exec (.pwMul x x y) ⟨P, t₂⟩ = .next ⟨P, { s with buf := m }⟩ ∧
      invNttSeq (StateAt.readSeq { s with buf := m } x n) n (sint s.mod) (sint s.root) =
        convolution (s.readSeq a n) (s.readSeq b n) n (sint s.mod) (sint s.root) := by
  rw [convolution]
  obtain ⟨-, hmax, -⟩ := StateAt.seqLen_eq_ok.1 h.len
  generalize hu : nttSeq (s.readSeq a n) n (sint s.mod) (sint s.root) = u
  generalize hv : nttSeq (s.readSeq b n) n (sint s.mod) (sint s.root) = v
  have hulen : u.length = n := by rw [← hu, nttSeq_length]
  have hvlen : v.length = n := by rw [← hv, nttSeq_length]
  have h₁ : (s.writeSeq x u).Rooted n := h.writeSeq x u
  have h₂ : ((s.writeSeq x u).writeSeq y v).Rooted n := h₁.writeSeq y v
  have hb : (s.writeSeq x u).readSeq b n = s.readSeq b n := s.readSeq_writeSeq_of_ne hxb hmax (hulen.trans_le hmax)
  have hx : ((s.writeSeq x u).writeSeq y v).readSeq x n = u :=
    (StateAt.readSeq_writeSeq_of_ne _ hxy.symm hmax (hvlen.trans_le hmax)).trans
      (s.readSeq_writeSeq_self x hulen (hu ▸ nttSeq_inField h.mod_pos _ _ _))
  have hy : ((s.writeSeq x u).writeSeq y v).readSeq y n = v :=
    StateAt.readSeq_writeSeq_self _ y hvlen (hv ▸ nttSeq_inField h.mod_pos _ _ _)
  have hntt := exec_ntt_of_rooted h x a
  have hntt' := exec_ntt_of_rooted h₁ y b
  have hmul := exec_pwMul_of_seqLen h₂.mod_pos h₂.len x x y
  rw [hu] at hntt
  rw [hb, StateAt.writeSeq_mod, StateAt.writeSeq_root, hv] at hntt'
  rw [hx, hy] at hmul
  refine ⟨_, _, _, hntt, hntt', hmul, congrArg (invNttSeq · n _ _) ?_⟩
  exact StateAt.readSeq_writeSeq_self _ x (by simp [hulen, hvlen]) (pointwise_inField h.mod_pos u v)

end Sys2Proof.Machine

namespace Sys2Proof.Machine

/-! ### The statements settled -/

/-- Settles O12: the products of the sources as they were, the errors in the order of the checks. -/
theorem pwMulRule : Obligations.PwMulRule := by
  intro P sd sa sb
  rw [twoSourceWord_eq_layout sd sa sb (by decide)]
  exact ⟨decode_twoSourceWord sd sa sb (by decide) rfl,
    fun s n hm hl h1 hmax => ⟨_, exec_pwMul_products hm (StateAt.seqLen_eq_ok.2 ⟨h1, hmax, hl⟩) sd sa sb,
      s.writeSeq_commits sd n _⟩,
    fun _ hm => exec_of_mod_nonpos _ hm, fun s hm hl => exec_of_len_outside (exec_pwMul s sd sa sb) hm hl⟩

/-- Settles O14: the cyclic convolution of the sources as they were, the errors in the order of the checks. -/
theorem chkConvRule : Obligations.ChkConvRule := by
  intro P sd sa sb
  rw [twoSourceWord_eq_layout sd sa sb (by decide)]
  exact ⟨decode_twoSourceWord sd sa sb (by decide) rfl,
    fun s n hm hl h1 hmax => ⟨_, exec_chkConv_cyclicConv hm (StateAt.seqLen_eq_ok.2 ⟨h1, hmax, hl⟩) sd sa sb,
      s.writeSeq_commits sd n _⟩,
    fun _ hm => exec_of_mod_nonpos _ hm, fun s hm hl => exec_of_len_outside (exec_chkConv s sd sa sb) hm hl⟩

/-- Settles O13: the inverse transform of the products of the transforms, the errors in the order of the checks. -/
theorem convRule : Obligations.ConvRule := by
  intro P sd sa sb
  rw [twoSourceWord_eq_layout sd sa sb (by decide)]
  refine ⟨decode_twoSourceWord sd sa sb (by decide) rfl, fun s n hm hl h1 hmax ho hroot hlen => ?_,
    fun _ hm => exec_of_mod_nonpos _ hm, fun s hm hl => exec_of_len_outside (exec_conv s sd sa sb) hm hl,
    fun s hm h1 hmax ho =>
      exec_of_not_exactOrder (exec_conv s sd sa sb) hm (StateAt.seqLen_of_range h1 hmax) ho,
    fun s hm h1 hmax ho hg => ?_⟩
  · have hr : s.Rooted n := ⟨hm, StateAt.seqLen_eq_ok.2 ⟨h1, hmax, hl⟩, ho⟩
    obtain ⟨wi, ni, hmulw, hmuln, hrun⟩ := exec_conv_transform hr sd sa sb hroot hlen
    exact ⟨_, wi, ni, hmulw, hmuln, hrun, s.writeSeq_commits sd n _⟩
  · have hr : s.Rooted (sint s.len).toNat := ⟨hm, StateAt.seqLen_of_range h1 hmax, ho⟩
    have hcast : ((sint s.len).toNat : Int) = s.len.toInt := Int.toNat_of_nonneg (le_trans (by decide) h1)
    exact exec_conv_of_not_coprime hr sd sa sb (hcast ▸ hg)

/-- Settles O47: (a) the convolution theorem with the round trip of the prime's residues, (b) the sums of one term. -/
theorem convMatchesReference : Obligations.ConvMatchesReference := by
  intro P
  refine ⟨fun s sd sd' sa sb n hm hprime hl h1 hmax ho => ?_, fun s sd sa sb hm hl hroot => ?_⟩
  · have hr : s.Rooted n := ⟨hm, StateAt.seqLen_eq_ok.2 ⟨h1, hmax, hl⟩, ho⟩
    obtain ⟨v, hv, hconv, hchk⟩ := exec_conv_chkConv hr hprime sd sd' sa sb
    exact ⟨_, _, hconv, hchk, rfl, rfl, fun i hi => s.writeSeq_bufWord_congr s sd sd' (hv ▸ hi)⟩
  · have hlen : sint s.len = (1 : Nat) := by
      have hw := P.wordWide
      rw [hl]
      exact BitVec.toInt_one (by omega)
    have hr : s.Rooted 1 := ⟨hm, StateAt.seqLen_eq_ok.2 ⟨le_rfl, NMAX_pos, hlen⟩, exactOrder_one hroot⟩
    exact ⟨_, exec_conv_of_len_one hr sd sa sb hroot, rfl, s.writeSeq_bufWord sd _ Nat.one_pos⟩

/-- Settles O48: INTT meets the sequence CONV inverts, with or without inverses. -/
theorem convIsFourCommands : Obligations.ConvIsFourCommands := by
  intro P s t d a b x y hxy hxb _ hf hm h1 hmax ho ht
  have hr : s.Rooted (sint s.len).toNat := ⟨hm, StateAt.seqLen_of_range h1 hmax, ho⟩
  obtain ⟨t₁, t₂, m, hntt, hntt', hmul, hinv⟩ := exec_ntt_ntt_pwMul hr (a := a) hxy hxb
  have hr' : StateAt.Rooted { s with buf := m } (sint s.len).toNat := ⟨hr.mod_pos, hr.len, hr.order⟩
  cases hz : convolution (s.readSeq a _) (s.readSeq b _) (sint s.len).toNat (sint s.mod) (sint s.root) with
  | some z =>
    have hintt := exec_intt_of_some hr' d x (hinv.trans hz)
    cases (exec_conv_of_some hr d a b hz).symm.trans ht
    refine ⟨t₁, t₂, _, _, hntt, hntt', hmul, hintt, hf, rfl, rfl, fun _ i hi => ?_⟩
    exact StateAt.writeSeq_bufWord_congr _ _ _ _ (by rw [convolution_length hz]; exact Int.lt_toNat.2 hi)
  | none =>
    have hintt := exec_intt_of_none hr' d x (hinv.trans hz)
    cases (exec_conv_of_none hr d a b hz).symm.trans ht
    exact ⟨t₁, t₂, _, _, hntt, hntt', hmul, hintt, hf, rfl, rfl, nofun⟩

end Sys2Proof.Machine

/-!
The exceptions (60_exceptions.md): the fault state (R165, R167), the fault clear (R166), what a fault of a command
leaves unchanged (R164), and what a run of a program answers (R175).
-/

namespace Sys2Proof.Machine

variable {P : Params}

/-! ### A host event's endings are what it does (20_memory.md R44, R45) -/

/-- `STATUS` has one address. -/
theorem target_status_iff {a : HostAddr P} : target a = .status ↔ a = 0x9 := by
  rw [target_eq_status, ← BitVec.toNat_inj]
  exact (iff_of_eq (congrArg (a.toNat = ·) (registerAddr_toNat (n := 9) (by decide)))).symm

/-- An ending names the one state its event leads to. -/
theorem EventEnding.hostEvent_eq {s t : StateAt P} {e : HostEvent P} (h : EventEnding s e t) :
    hostEvent e s = .next ⟨P, t⟩ := by
  cases h with
  | read | reset => rfl
  | scalar a d r ht hr => exact hostWrite_scalar d ht hr
  | buffer a d k i ht => exact hostWrite_buf d ht
  | status a d ht => exact hostWrite_status d ht
  | illegal a d e ht hf hd =>
    refine (hostWrite_cmd d ht hf).trans ?_
    rw [runCommand_of_illegal hd, cmdWord_eq_ofNat]
    rfl
  | command a d i u ht hf hd hx =>
    refine (hostWrite_cmd d ht hf).trans ?_
    rw [runCommand_of_decode hd, hx]
    rfl
  | refused a d hr => exact hostWrite_refused d hr

theorem step_eq_next_iff {s t : StateAt P} {e : HostEvent P} {rest : List (HostEvent P)} (hp : s.pending = e :: rest) :
    step ⟨P, s⟩ = .next ⟨P, t⟩ ↔ EventEnding { s with pending := rest } e t := by
  rw [step_of_event (s := ⟨P, s⟩) hp]
  refine ⟨fun h => ?_, EventEnding.hostEvent_eq⟩
  obtain ⟨_, hu, hend⟩ := hostEvent_ending h
  cases hu
  exact hend

/-! ### The fault state (60_exceptions.md R165, R167) and the fault clear (R166) -/

/-- A read of any address but that of `STATUS` does not see the fault. -/
theorem hostRead_withoutFault {a : HostAddr P} (s : StateAt P) (h : target a ≠ .status) :
    hostRead a { s with fault := false } = hostRead a s := by
  unfold hostRead
  cases ht : target a with
  | status => exact absurd ht h
  | scalar r => cases r <;> rfl
  | cmd | ecmd | buf | unmapped => rfl

/-- R165: an event that is no reset, no read and no write of `STATUS` and no write of `CMD` keeps the fault, and does
and answers what it would without it. -/
theorem EventEnding.withoutFault {s t : StateAt P} {e : HostEvent P} (h : EventEnding s e t) (hf : s.fault = true)
    (hrst : e ≠ .rst) (hread : e ≠ .rd 0x9) (hcmd : ∀ d, e ≠ .wr 0x8 d) (hstatus : ∀ d, e ≠ .wr 0x9 d) :
    t.fault = true ∧ EventEnding { s with fault := false } e { t with fault := false } := by
  cases h with
  | reset => exact absurd rfl hrst
  | status a d ht => exact absurd (by rw [target_status_iff.1 ht]) (hstatus d)
  | illegal _ _ _ _ hclean | command _ _ _ _ _ hclean => simp [hf] at hclean
  | read a =>
    have hs : target a ≠ .status := fun ht => hread (by rw [target_status_iff.1 ht])
    refine ⟨hf, ?_⟩
    rw [← hostRead_withoutFault s hs]
    exact .read a
  | scalar a d r ht hr =>
    refine ⟨by simpa using hf, ?_⟩
    cases r <;> exact .scalar a d _ ht hr
  | buffer a d k i ht => exact ⟨hf, .buffer a d k i ht⟩
  | refused a d hr =>
    refine ⟨hf, .refused a d (hr.imp_right (.imp_right (.imp_right fun ⟨ht, _⟩ => ?_)))⟩
    exact absurd (by rw [hostAddr_eq_cmd.2 (target_eq_cmd.1 ht)]) (hcmd d)

/-- R167: in the fault state an event keeps `FAULT`, `ERR` and `ECMD` unless it is a reset or a fault clear. -/
theorem EventEnding.fault_kept {s t : StateAt P} {e : HostEvent P} (h : EventEnding s e t) (hf : s.fault = true)
    (hrst : e ≠ .rst) (hclear : ∀ d, e = .wr 0x9 d → d.toNat % 2 = 0) :
    t.fault = true ∧ t.err = s.err ∧ t.ecmd = s.ecmd := by
  cases h with
  | reset => exact absurd rfl hrst
  | illegal _ _ _ _ hclean | command _ _ _ _ _ hclean => simp [hf] at hclean
  | status a d ht =>
    have heven : d.toNat % 2 = 0 := hclear d (by rw [target_status_iff.1 ht])
    rw [StateAt.writeStatus_of_even s heven]
    exact ⟨hf, rfl, rfl⟩
  | scalar => simpa using hf
  | read | buffer | refused => exact ⟨hf, rfl, rfl⟩

/-- R166: with no fault pending and `ERR` 0 a clear changes nothing. -/
theorem StateAt.writeStatus_of_clean {s : StateAt P} (hf : s.fault = false) (he : s.err = 0) (d : Word P) :
    s.writeStatus d = s := by
  unfold StateAt.writeStatus
  split
  · rw [StateAt.clearFault, ← hf, ← he]
  · rfl

theorem step_of_writeStatus {s : StateAt P} {d : Word P} {rest : List (HostEvent P)}
    (hp : s.pending = .wr 0x9 d :: rest) :
    step ⟨P, s⟩ = .next ⟨P, (StateAt.writeStatus { s with pending := rest } d).respond .done⟩ :=
  (step_of_write hp).trans (hostWrite_status d target_status)

theorem step_of_clear {s : StateAt P} {d : Word P} {rest : List (HostEvent P)} (hp : s.pending = .wr 0x9 d :: rest)
    (hodd : d.toNat % 2 = 1) :
    step ⟨P, s⟩ = .next ⟨P, (StateAt.clearFault { s with pending := rest }).respond .done⟩ := by
  rw [step_of_writeStatus hp, StateAt.writeStatus_of_odd _ hodd]

/-- With no fault pending a write of `CMD` is accepted, whatever its word. -/
theorem step_of_writeCmd {s : StateAt P} {d : Word P} {rest : List (HostEvent P)}
    (hp : s.pending = .wr 0x8 d :: rest) (hf : s.fault = false) :
    ∃ t, step ⟨P, s⟩ = .next ⟨P, t⟩ ∧ t.responses = s.responses ++ [.done] := by
  obtain ⟨t, ht, -⟩ := runCommand_cases d { s with pending := rest }
  exact ⟨_, (step_of_write hp).trans ((hostWrite_cmd (s := { s with pending := rest }) d target_cmd hf).trans ht), rfl⟩

/-! ### Events do not see the earlier answers (60_exceptions.md R175) -/

/-- A command does the same whatever was answered before it. -/
theorem exec_withResponses {i : Instr} {s t : StateAt P} (h : exec i ⟨P, s⟩ = .next ⟨P, t⟩)
    (before : List (Response P)) :
    exec i ⟨P, { s with responses := before }⟩ = .next ⟨P, { t with responses := before }⟩ := by
  have hsame : s.sameOperands { s with responses := before } := ⟨rfl, rfl, rfl, rfl, rfl, rfl, fun _ _ _ => rfl⟩
  obtain ⟨r, r', hr, hr', halike⟩ := hsame.exec_alike i
  cases hr.symm.trans h
  rw [hr']
  cases halike with
  | raised | rootFound => rfl
  | result hv | committed _ hv => rw [hv]; rfl

theorem hostRead_withResponses (a : HostAddr P) (s : StateAt P) (before : List (Response P)) :
    hostRead a { s with responses := before } = hostRead a s := by
  unfold hostRead
  cases target a with
  | scalar r => cases r <;> rfl
  | cmd | status | ecmd | buf | unmapped => rfl

theorem StateAt.writeStatus_withResponses (s : StateAt P) (d : Word P) (before : List (Response P)) :
    StateAt.writeStatus { s with responses := before } d = { s.writeStatus d with responses := before } := by
  unfold StateAt.writeStatus
  split <;> rfl

/-- An event adds its own answers to any earlier ones, and its effect is the same after all of them. -/
theorem EventEnding.withResponses {s t : StateAt P} {e : HostEvent P} (h : EventEnding s e t) :
    ∃ own : List (Response P), own.length = (if e = .rst then 0 else 1) ∧
      ∀ before, EventEnding { s with responses := before } e { t with responses := before ++ own } := by
  cases h with
  | read a =>
    refine ⟨[hostRead a s], rfl, fun before => ?_⟩
    rw [← hostRead_withResponses a s before]
    exact .read a
  | scalar a d r ht hr =>
    refine ⟨[.done], rfl, fun before => ?_⟩
    cases r <;> exact .scalar a d _ ht hr
  | status a d ht =>
    refine ⟨[.done], rfl, fun before => ?_⟩
    have hend := EventEnding.status (s := { s with responses := before }) a d ht
    rw [StateAt.writeStatus_withResponses] at hend
    exact hend
  | buffer a d k i ht => exact ⟨[.done], rfl, fun _ => .buffer a d k i ht⟩
  | illegal a d e ht hf hd => exact ⟨[.done], rfl, fun _ => .illegal a d e ht hf hd⟩
  | command a d i u ht hf hd hx => exact ⟨[.done], rfl, fun before =>
    .command (s := { s with responses := before }) a d i _ ht hf hd (exec_withResponses hx before)⟩
  | refused a d hr => exact ⟨[.refusedWrite], rfl, fun _ => .refused a d hr⟩
  | reset => exact ⟨[], rfl, fun before => by rw [List.append_nil]; exact .reset⟩

/-- Every event leaves the events after it to be run. -/
theorem EventEnding.pending {s t : StateAt P} {e : HostEvent P} (h : EventEnding s e t) : t.pending = s.pending := by
  cases h with
  | command a d i u _ _ _ hx =>
    obtain ⟨_, hv, hend⟩ := exec_ending hx
    cases hv
    cases hend <;> rfl
  | scalar | status => simp [StateAt.writeStatus, apply_ite StateAt.pending]
  | read | buffer | illegal | refused | reset => rfl

/-! ### The run of a program (60_exceptions.md R175) -/

theorem State.runPending_of_idle {s : StateAt P} (hp : s.pending = []) :
    State.runPending ⟨P, s⟩ = .next ⟨P, s⟩ := by
  rw [State.runPending, hp]
  rfl

theorem run_succ_of_step {s t : State} (h : step s = .next t) (k : Nat) :
    Host.Core.run core (k + 1) s = Host.Core.run core k t := by
  have hcore : core.step s = .next t := h
  simp only [Host.Core.run, hcore]

theorem State.runPending_of_step {s t : StateAt P} {e : HostEvent P} (hs : step ⟨P, s⟩ = .next ⟨P, t⟩)
    (hp : s.pending = e :: t.pending) : State.runPending ⟨P, s⟩ = State.runPending ⟨P, t⟩ := by
  rw [State.runPending, hp]
  exact run_succ_of_step hs _

/-- Of the events to run each read and each write counts once, a reset not at all. -/
theorem transactions_cons (e : HostEvent P) (es : List (HostEvent P)) :
    ((e :: es).filter (· ≠ .rst)).length = (if e = .rst then 0 else 1) + (es.filter (· ≠ .rst)).length := by
  by_cases h : e = .rst <;> simp [h, Nat.add_comm]

/-- A run ends, and adds its own answers, one for each transaction, to whatever was answered before it. -/
theorem State.runPending_answers {es : List (HostEvent P)} (s : StateAt P) (hp : s.pending = es) :
    ∃ (t : StateAt P) (own : List (Response P)), t.pending = [] ∧ own.length = (es.filter (· ≠ .rst)).length ∧
      ∀ before, State.runPending ⟨P, { s with responses := before }⟩ =
        .next ⟨P, { t with responses := before ++ own }⟩ := by
  induction es generalizing s with
  | nil =>
    refine ⟨s, [], hp, rfl, fun before => ?_⟩
    rw [List.append_nil]
    exact runPending_of_idle (s := { s with responses := before }) hp
  | cons e rest ih =>
    obtain ⟨t, ht⟩ := hostEvent_answers e { s with pending := rest }
    obtain ⟨u, rfl, hend⟩ := hostEvent_ending ht
    have hu : u.pending = rest := hend.pending
    obtain ⟨own₁, hlen₁, hfirst⟩ := hend.withResponses
    obtain ⟨v, own₂, hv, hlen₂, hlater⟩ := ih u hu
    refine ⟨v, own₁ ++ own₂, hv, ?_, fun before => ?_⟩
    · rw [List.length_append, hlen₁, hlen₂, transactions_cons]
    · have hstep : step ⟨P, { s with responses := before }⟩ = .next ⟨P, { u with responses := before ++ own₁ }⟩ :=
        (step_eq_next_iff (s := { s with responses := before }) hp).2 (hfirst before)
      rw [runPending_of_step hstep (hp.trans (congrArg _ hu.symm)), hlater, List.append_assoc]

end Sys2Proof.Machine

namespace Sys2Proof.Machine

/-! ### The statements settled -/

/-- Settles O28: a `CMD` write is refused, and every other event runs as it would without the fault. -/
theorem faultStateRule : Obligations.FaultStateRule := by
  intro P
  refine ⟨fun s d rest hf hp => ?_, fun s t e rest hf hp hrst hwr hread h => ?_⟩
  · exact (step_of_write hp).trans (hostWrite_refused d (.inr (.inr (.inr ⟨target_cmd, hf⟩))))
  · have hend := (step_eq_next_iff hp).1 h
    obtain ⟨hkept, hclean⟩ := hend.withoutFault hf hrst hread (fun d => (hwr d).left) fun d => (hwr d).right
    exact ⟨hkept, (step_eq_next_iff (s := { s with fault := false }) hp).2 hclean⟩

/-- Settles O29: an idle step keeps everything, and so do the events that are neither a clear nor a reset. -/
theorem firstFaultKept : Obligations.FirstFaultKept := by
  intro P s t hf h hclear hrst
  cases hp : s.pending with
  | nil =>
    cases (step_of_idle (s := ⟨P, s⟩) hp).symm.trans h
    exact ⟨hf, rfl, rfl⟩
  | cons e rest =>
    refine ((step_eq_next_iff hp).1 h).fault_kept hf ?_ ?_
    · rintro rfl
      exact hrst rest hp
    · rintro d rfl
      exact hclear d rest hp

/-- Settles O31, by the ways a command ends: fault entry on the state as it was, or a commit that leaves `STATUS`. -/
theorem faultsAllOrNothing : Obligations.FaultsAllOrNothing := by
  intro P i s t hs h
  obtain ⟨_, hu, hend⟩ := exec_ending h
  cases hu
  cases hend with
  | raised e => exact ⟨fun _ => ⟨e.code, e.code_ne_zero, rfl⟩, nofun⟩
  | result | rootFound | committed => exact ⟨fun hf => by simp [hs] at hf, fun _ => ⟨rfl, rfl⟩⟩

/-- Settles O40, from the answers a run adds to those it started with. -/
theorem everyRunEnds : Obligations.EveryRunEnds := by
  intro P s
  obtain ⟨t, own, hp, hlen, hrun⟩ := State.runPending_answers s rfl
  exact ⟨_, hrun s.responses, hp, ⟨own, rfl⟩, by rw [List.length_append, hlen]⟩

/-- Settles O41: the run adds the same answers after any earlier ones, and they alone are counted. -/
theorem runCountsItsOwnAnswers : Obligations.RunCountsItsOwnAnswers := by
  intro P s t h
  obtain ⟨u, own, -, -, hrun⟩ := State.runPending_answers s rfl
  cases (hrun s.responses).symm.trans h
  refine ⟨?_, fun before => ⟨_, hrun before, ?_⟩⟩
  · rw [State.goneWrong_of_append rfl]
    simp
  · rw [State.goneWrong_of_append rfl, State.goneWrong_of_append rfl]

/-- Settles O30, by what the write of `STATUS` does with bit 0 set, with bit 0 clear, and without a fault. -/
theorem faultClearRule : Obligations.FaultClearRule := by
  intro P
  refine ⟨fun s d rest hp hodd => ?_, fun s d rest hp heven => ?_, fun s d rest hp hinv hf => ?_,
    fun s d c rest hp hodd => ?_⟩
  · exact step_of_clear hp hodd
  · rw [step_of_writeStatus hp, StateAt.writeStatus_of_even _ heven]
    rfl
  · obtain ⟨hstatus, -⟩ := hinv
    rw [step_of_writeStatus hp, StateAt.writeStatus_of_clean (s := { s with pending := rest }) hf (hstatus.2 hf)]
    rfl
  · obtain ⟨t, hclear, hnext, hclean, hfirst⟩ : ∃ t : StateAt P, step ⟨P, s⟩ = .next ⟨P, t⟩ ∧
        t.pending = .wr 0x8 c :: rest ∧ t.fault = false ∧ t.responses = s.responses ++ [.done] :=
      ⟨_, step_of_clear hp hodd, rfl, rfl, rfl⟩
    obtain ⟨u, hcmd, hsecond⟩ := step_of_writeCmd hnext hclean
    exact ⟨t, u, hclear, hcmd, by rw [hsecond, hfirst, List.append_assoc]; rfl⟩

end Sys2Proof.Machine

/-!
The reset event (70_reset_and_hazards.md R190): the step that runs it, and the words the buffers hold after it (R33).
-/

namespace Sys2Proof.Machine

variable {P : Params}

/-- No word is listed after a reset, so each one is free, and free anew (10_state.md R33; assumption 3). -/
@[simp] theorem StateAt.applyReset_wordAt (s : StateAt P) (a : Nat) :
    s.applyReset.wordAt a = Config.resetWord P (s.resets + 1) a := by
  simp [StateAt.wordAt, Memory.find]

theorem step_of_reset {s : StateAt P} {rest : List (HostEvent P)} (hp : s.pending = .rst :: rest) :
    step ⟨P, s⟩ = .next ⟨P, StateAt.applyReset { s with pending := rest }⟩ :=
  (step_eq_next_iff hp).2 .reset

/-- Settles O35, field by field of the reset event's state; the buffer words by `StateAt.applyReset_wordAt`. -/
theorem resetEvent : Obligations.ResetEvent := fun _ _ _ hp =>
  ⟨_, step_of_reset hp, rfl, rfl, rfl, rfl, rfl, rfl, rfl, rfl, rfl, rfl, StateAt.applyReset_wordAt _, rfl, rfl, rfl⟩

end Sys2Proof.Machine

/-!
The command words the specification writes out (95_test_vectors.md V14 and Part 3).
-/

namespace Sys2Proof.Machine

/-- Settles O18: each number is the encoder's word of its command, which decodes to it at every width. -/
theorem specWordsDecode : Obligations.SpecWordsDecode := by
  intro P
  and_intros
  all_goals exact decode_ofNat_of_encode (by decide) rfl

end Sys2Proof.Machine
